-- ==== Sys2Proof/Word.lean ====
section
/-! DEFINITION. The word types of the hardware (00_scope.md R5, R6). -/

namespace Sys2Proof

/-- A general register, the PC, an address or an extension word: 32 bits (00_scope.md R5, XLEN, PCLEN, ALEN). -/
abbrev Word := BitVec 32

/-- The addressable unit, 8 bits (00_scope.md R5). -/
abbrev Byte := BitVec 8

/-- A 4-bit field of the instruction header (30_encoding.md R51). -/
abbrev Nibble := BitVec 4

/-- A 4-bit field used as a register index: "syntactically 0-15", checked against 0 to 7 only when the
register is accessed (10_state.md R13). -/
abbrev RegField := Nibble

end Sys2Proof
end

