-- ==== Sys2Proof/Syntax.lean ====
section
/-! DEFINITION. The instruction set, WHOLE: one constructor for each of the 26 mnemonics of spec/opcode_table.json
(30_encoding.md R58; the fourteen rows of nop.u differ in their op0 only, which is that constructor's field,
notes/assumptions/18.md), and the instruction latches. Don't-care and ignored fields are kept, so that no bit of an
encoding is lost (notes/assumptions/19.md). -/

namespace Sys2Proof

/-- The seven instruction latches the fetch unit writes (10_state.md R16). -/
structure IR where
  /-- Top nibble of byte0. -/
  opcode : Nibble
  /-- Low nibble of byte0. -/
  op0 : Nibble
  /-- Top nibble of byte1. -/
  op1 : Nibble
  /-- Low nibble of byte1. -/
  op2 : Nibble
  /-- byte1, read as a signed 8-bit number. -/
  imm : BitVec 8
  /-- The extension word when the opcode is 0x0 or 0xB, else 0. -/
  ext : Word
  /-- The raw packed value, byte0 ‖ byte1 ‖ ext (30_encoding.md R68). -/
  raw : BitVec 48
  deriving DecidableEq, Repr

/-- An instruction. The fields stand in the order of their bits in the encoding (30_encoding.md R56). -/
inductive Instr where
  /-- `ld.imm`, `0d-- vvvvvvvv` (42_load_store.md R90). -/
  | ldImm (rd : RegField) (pad : Byte) (value : Word)
  /-- `ld.off`, `1psd` (R91). -/
  | ldOff (offset : Nibble) (base rd : RegField)
  /-- `ld.idx`, `2sid` (R92). -/
  | ldIdx (base index rd : RegField)
  /-- `st.off`, `3spd` (R93). -/
  | stOff (rs : RegField) (offset : Nibble) (base : RegField)
  /-- `st.idx`, `4sdi` (R94). -/
  | stIdx (rs base index : RegField)
  /-- `mov`, `60sd` (43_alu.md R101). -/
  | mov (rs rd : RegField)
  /-- `add`, `61sd` (R102). -/
  | add (rs rd : RegField)
  /-- `and`, `62sd` (R103). -/
  | and (rs rd : RegField)
  /-- `inc`, `63-d` (R104). -/
  | inc (pad : Nibble) (rd : RegField)
  /-- `inca`, `64-d` (R105). -/
  | inca (pad : Nibble) (rd : RegField)
  /-- `dec`, `65-d` (R106). -/
  | dec (pad : Nibble) (rd : RegField)
  /-- `deca`, `66-d` (R107). -/
  | deca (pad : Nibble) (rd : RegField)
  /-- `not`, `67-d` (R108). -/
  | not (pad : Nibble) (rd : RegField)
  /-- `shift`, `7dvv` (44_shift.md R116). -/
  | shift (rd : RegField) (amount : BitVec 8)
  /-- `halt`, `F0--` (45_halt_nop.md R122). -/
  | halt (pad : Byte)
  /-- `nop`, `FF--` (R123). -/
  | nop (pad : Byte)
  /-- `nop.u`, `Fk--` with k from 1 to E (R124). -/
  | nopU (selector : Nibble) (pad : Byte)
  /-- `reserved.5`, `5---` (R125). -/
  | reserved5 (op0 : Nibble) (pad : Byte)
  /-- `reserved.8`, `8---` (R125). -/
  | reserved8 (op0 : Nibble) (pad : Byte)
  /-- `reserved.9`, `9---` (R125). -/
  | reserved9 (op0 : Nibble) (pad : Byte)
  /-- `reserved.a`, `A---` (R125). -/
  | reservedA (op0 : Nibble) (pad : Byte)
  /-- `reserved.c`, `C---` (R125). -/
  | reservedC (op0 : Nibble) (pad : Byte)
  /-- `reserved.d`, `D---` (R125). -/
  | reservedD (op0 : Nibble) (pad : Byte)
  /-- `reserved.e`, `E---` (R125). -/
  | reservedE (op0 : Nibble) (pad : Byte)
  /-- `reserved.b`, `B--- eeeeeeee`, 6 bytes (R127). -/
  | reservedB (op0 : Nibble) (pad : Byte) (ext : Word)
  /-- `reserved.alu`, `68--` to `6F--` (R126). -/
  | reservedAlu (selector : Nibble) (pad : Byte)
  deriving DecidableEq, Repr

/-- The row of spec/opcode_table.json an instruction belongs to, by its mnemonic. -/
def Instr.mnemonic : Instr → String
  | .ldImm _ _ _ => "ld.imm"
  | .ldOff _ _ _ => "ld.off"
  | .ldIdx _ _ _ => "ld.idx"
  | .stOff _ _ _ => "st.off"
  | .stIdx _ _ _ => "st.idx"
  | .mov _ _ => "mov"
  | .add _ _ => "add"
  | .and _ _ => "and"
  | .inc _ _ => "inc"
  | .inca _ _ => "inca"
  | .dec _ _ => "dec"
  | .deca _ _ => "deca"
  | .not _ _ => "not"
  | .shift _ _ => "shift"
  | .halt _ => "halt"
  | .nop _ => "nop"
  | .nopU _ _ => "nop.u"
  | .reserved5 _ _ => "reserved.5"
  | .reserved8 _ _ => "reserved.8"
  | .reserved9 _ _ => "reserved.9"
  | .reservedA _ _ => "reserved.a"
  | .reservedC _ _ => "reserved.c"
  | .reservedD _ _ => "reserved.d"
  | .reservedE _ _ => "reserved.e"
  | .reservedB _ _ _ => "reserved.b"
  | .reservedAlu _ _ => "reserved.alu"

end Sys2Proof
end

