-- ==== Sys2Proof/WellFormed.lean ====
section
/-! DEFINITION. Which terms of `Instr` stand for an encoding. A register field is not restricted to 0 to 7: the
encoding expresses 8 to 15 and the range check is made at the access (10_state.md R13, 60_exceptions.md R137).
Only the two rows that share their opcode with others restrict their selector. -/

namespace Sys2Proof

/-- nop.u has op0 from 0x1 to 0xE (45_halt_nop.md R124); reserved.alu has op0 from 0x8 to 0xF (R126). -/
def Instr.wf : Instr → Bool
  | .nopU selector _ => decide (1 ≤ selector.toNat) && decide (selector.toNat ≤ 14)
  | .reservedAlu selector _ => decide (8 ≤ selector.toNat)
  | .ldImm _ _ _ | .ldOff _ _ _ | .ldIdx _ _ _ | .stOff _ _ _ | .stIdx _ _ _ => true
  | .mov _ _ | .add _ _ | .and _ _ | .inc _ _ | .inca _ _ | .dec _ _ | .deca _ _ | .not _ _ => true
  | .shift _ _ | .halt _ | .nop _ => true
  | .reserved5 _ _ | .reserved8 _ _ | .reserved9 _ _ | .reservedA _ _ => true
  | .reservedC _ _ | .reservedD _ _ | .reservedE _ _ | .reservedB _ _ _ => true

end Sys2Proof
end

