-- ==== Sys2Proof/Decode.lean ====
section
/-! DEFINITION. The decoder, total on any bytes, and after it the encoder, both from 30_encoding.md. -/

namespace Sys2Proof

/-- The top nibble of a byte (40_fetch_unit.md R72). -/
def highNibble (b : Byte) : Nibble := b.extractLsb' 4 4

/-- The low nibble of a byte (40_fetch_unit.md R72). -/
def lowNibble (b : Byte) : Nibble := b.extractLsb' 0 4

/-- A byte from its two nibbles, the top one first (30_encoding.md R51). -/
def packNibbles (high low : Nibble) : Byte := high ++ low

/-- Four bytes as a big-endian word: the first is the most significant (20_memory.md R33). -/
def wordOfBytes (b0 b1 b2 b3 : Byte) : Word := b0 ++ b1 ++ b2 ++ b3

/-- The byte of a word that big-endian order puts at the word's address plus `i`, `i` from 0 to 3 (20_memory.md R33). -/
def byteOfWord (v : Word) (i : Nat) : Byte := v.extractLsb' (8 * (3 - i)) 8

/-- Whether an extension word follows: the opcode nibble is 0x0 or 0xB and nothing else counts (40_fetch_unit.md R73). -/
def hasExtension (opcode : Nibble) : Bool := opcode == 0x0#4 || opcode == 0xB#4

/-- The instruction length in bytes, from the opcode nibble (30_encoding.md R55). -/
def instrLength (opcode : Nibble) : Nat := if hasExtension opcode then 6 else 2

/-- The latches the fetch unit makes of a header and an extension word (40_fetch_unit.md R70, R72; 30_encoding.md R68).
`ext` is 0 for a 2-byte instruction. -/
def latchFields (b0 b1 : Byte) (ext : Word) : IR where
  opcode := highNibble b0
  op0 := lowNibble b0
  op1 := highNibble b1
  op2 := lowNibble b1
  imm := b1
  ext := ext
  raw := b0 ++ b1 ++ ext

/-- The ALU group, opcode 0x6, selected by op0 (43_alu.md R100, 45_halt_nop.md R126). -/
def decodeAlu (ir : IR) : Instr :=
  match ir.op0 with
  | 0x0#4 => .mov ir.op1 ir.op2
  | 0x1#4 => .add ir.op1 ir.op2
  | 0x2#4 => .and ir.op1 ir.op2
  | 0x3#4 => .inc ir.op1 ir.op2
  | 0x4#4 => .inca ir.op1 ir.op2
  | 0x5#4 => .dec ir.op1 ir.op2
  | 0x6#4 => .deca ir.op1 ir.op2
  | 0x7#4 => .not ir.op1 ir.op2
  | selector => .reservedAlu selector (packNibbles ir.op1 ir.op2)

/-- Opcode 0xF, selected by op0 (45_halt_nop.md R122 to R124). -/
def decodeSystem (ir : IR) : Instr :=
  match ir.op0 with
  | 0x0#4 => .halt (packNibbles ir.op1 ir.op2)
  | 0xF#4 => .nop (packNibbles ir.op1 ir.op2)
  | selector => .nopU selector (packNibbles ir.op1 ir.op2)

/-- DEC.decode: the instruction in the latches (41_decode_dispatch.md R81). The row is selected by `opcode`, and by
`op0` for opcodes 0x6 and 0xF; the other latches only fill the operands (R82). The last case is opcode 0xF, the one
value left. -/
def decodeIR (ir : IR) : Instr :=
  match ir.opcode with
  | 0x0#4 => .ldImm ir.op0 (packNibbles ir.op1 ir.op2) ir.ext
  | 0x1#4 => .ldOff ir.op0 ir.op1 ir.op2
  | 0x2#4 => .ldIdx ir.op0 ir.op1 ir.op2
  | 0x3#4 => .stOff ir.op0 ir.op1 ir.op2
  | 0x4#4 => .stIdx ir.op0 ir.op1 ir.op2
  | 0x5#4 => .reserved5 ir.op0 (packNibbles ir.op1 ir.op2)
  | 0x6#4 => decodeAlu ir
  | 0x7#4 => .shift ir.op0 ir.imm
  | 0x8#4 => .reserved8 ir.op0 (packNibbles ir.op1 ir.op2)
  | 0x9#4 => .reserved9 ir.op0 (packNibbles ir.op1 ir.op2)
  | 0xA#4 => .reservedA ir.op0 (packNibbles ir.op1 ir.op2)
  | 0xB#4 => .reservedB ir.op0 (packNibbles ir.op1 ir.op2) ir.ext
  | 0xC#4 => .reservedC ir.op0 (packNibbles ir.op1 ir.op2)
  | 0xD#4 => .reservedD ir.op0 (packNibbles ir.op1 ir.op2)
  | 0xE#4 => .reservedE ir.op0 (packNibbles ir.op1 ir.op2)
  | _ => decodeSystem ir

/-- Why a byte string holds no instruction. Every header has a row (30_encoding.md R65), so bytes can only be missing. -/
inductive DecodeReject where
  /-- Fewer than the two bytes of a header. -/
  | truncatedHeader
  /-- The opcode is 0x0 or 0xB and fewer than four bytes follow the header. -/
  | truncatedExtension
  deriving DecidableEq, Repr

/-- The instruction at the head of a byte string, lowest address first, and the bytes after it
(30_encoding.md R50 to R52, R55). -/
def decode : List Byte → Except DecodeReject (Instr × List Byte)
  | b0 :: b1 :: rest =>
    if hasExtension (highNibble b0) then
      match rest with
      | e0 :: e1 :: e2 :: e3 :: rest' => .ok (decodeIR (latchFields b0 b1 (wordOfBytes e0 e1 e2 e3)), rest')
      | _ => .error .truncatedExtension
    else .ok (decodeIR (latchFields b0 b1 0#32), rest)
  | _ => .error .truncatedHeader

/-- The bytes of a word in address order (20_memory.md R33). -/
def bytesOfWord (v : Word) : List Byte := [byteOfWord v 0, byteOfWord v 1, byteOfWord v 2, byteOfWord v 3]

/-- A header with its byte1 given whole. -/
def header (opcode op0 : Nibble) (byte1 : Byte) : List Byte := [packNibbles opcode op0, byte1]

/-- A header from its four nibbles (30_encoding.md R51). -/
def headerNibbles (opcode op0 op1 op2 : Nibble) : List Byte := header opcode op0 (packNibbles op1 op2)

/-- The bytes of an instruction, lowest address first, from the encodings of 30_encoding.md R56, R59, R60 to R62. -/
def encode : Instr → List Byte
  | .ldImm rd pad value => header 0x0#4 rd pad ++ bytesOfWord value
  | .ldOff offset base rd => headerNibbles 0x1#4 offset base rd
  | .ldIdx base index rd => headerNibbles 0x2#4 base index rd
  | .stOff rs offset base => headerNibbles 0x3#4 rs offset base
  | .stIdx rs base index => headerNibbles 0x4#4 rs base index
  | .mov rs rd => headerNibbles 0x6#4 0x0#4 rs rd
  | .add rs rd => headerNibbles 0x6#4 0x1#4 rs rd
  | .and rs rd => headerNibbles 0x6#4 0x2#4 rs rd
  | .inc pad rd => headerNibbles 0x6#4 0x3#4 pad rd
  | .inca pad rd => headerNibbles 0x6#4 0x4#4 pad rd
  | .dec pad rd => headerNibbles 0x6#4 0x5#4 pad rd
  | .deca pad rd => headerNibbles 0x6#4 0x6#4 pad rd
  | .not pad rd => headerNibbles 0x6#4 0x7#4 pad rd
  | .shift rd amount => header 0x7#4 rd amount
  | .halt pad => header 0xF#4 0x0#4 pad
  | .nop pad => header 0xF#4 0xF#4 pad
  | .nopU selector pad => header 0xF#4 selector pad
  | .reserved5 op0 pad => header 0x5#4 op0 pad
  | .reserved8 op0 pad => header 0x8#4 op0 pad
  | .reserved9 op0 pad => header 0x9#4 op0 pad
  | .reservedA op0 pad => header 0xA#4 op0 pad
  | .reservedC op0 pad => header 0xC#4 op0 pad
  | .reservedD op0 pad => header 0xD#4 op0 pad
  | .reservedE op0 pad => header 0xE#4 op0 pad
  | .reservedB op0 pad ext => header 0xB#4 op0 pad ++ bytesOfWord ext
  | .reservedAlu selector pad => header 0x6#4 selector pad

/-- The six bytes a table word stands for, in address order. The table numbers the bits of the 16-bit header 15 to 0
with byte0 on top (30_encoding.md R51), and later bits count on in 16-bit words, so each word is laid out with its
high byte first; bits from `nbits` up are 0 (notes/assumptions/16.md). -/
def tableBytes (nbits w : Nat) : List Byte :=
  let v : BitVec 48 := BitVec.ofNat 48 (w % 2 ^ nbits)
  [v.extractLsb' 8 8, v.extractLsb' 0 8, v.extractLsb' 24 8, v.extractLsb' 16 8, v.extractLsb' 40 8, v.extractLsb' 32 8]

/-- The instruction the decoder reads from a word numbered as spec/opcode_table.json numbers it. -/
def decodeTableWord (nbits w : Nat) : Option Instr :=
  match decode (tableBytes nbits w) with
  | .ok (i, _) => some i
  | .error _ => none

end Sys2Proof
end

