-- ==== Sys2Proof/Config.lean ====
section
/-! DEFINITION. What an implementation fixes (00_scope.md R5, 10_state.md R22), and the free value. -/

namespace Sys2Proof

/-- SHIFT_RULE: what a shift by 32 or more does (44_shift.md R118). -/
inductive ShiftRule where
  /-- The count is reduced modulo 32. -/
  | mod32
  /-- Everything is shifted out: 0, or all sign bits on the right. -/
  | saturate
  /-- The model gives such a shift no meaning. -/
  | refuse
  deriving DecidableEq, Repr

/-- The parameters left OPEN that never change during a run (00_scope.md R5, 10_state.md R22).
The state carries them (notes/assumptions/1.md), so a statement about every state holds for every value of them. -/
structure Params where
  /-- MEM_SIZE: the valid addresses are 0 to MEM_SIZE-1 (20_memory.md R31). -/
  memSize : Nat
  /-- DATA_ALIGN4: a 32-bit data access needs a multiple of 4 (20_memory.md R34). -/
  dataAlign4 : Bool
  /-- FETCH_ALIGN2: the header fetch needs an even PC (20_memory.md R35). -/
  fetchAlign2 : Bool
  /-- SHIFT_RULE (44_shift.md R118). -/
  shiftRule : ShiftRule
  /-- RESET_PC: the PC after reset (10_state.md R23). -/
  resetPc : Word
  deriving DecidableEq, Repr

/-- The constraint on MEM_SIZE: 6 <= MEM_SIZE <= 2^32 (20_memory.md R31). -/
abbrev Params.legal (p : Params) : Prop := 6 ≤ p.memSize ∧ p.memSize ≤ 4294967296

/-- The free value: what the seven latches hold after a fetch that raised AddressError is unspecified
(40_fetch_unit.md R75, 93_implementation_defined.md U4), so nothing is known of these 104 bits
(notes/assumptions/7.md). The argument is the state's count of free values drawn. -/
opaque Config.freeLatches : Nat → BitVec 104

end Sys2Proof
end

