-- ==== Sys2Proof/Machine/ResetValues.lean ====
section
/-! DEFINITION. The values `State.reset` takes where the spec states none (70_reset_and_hazards.md R150). No rule of
the machine reads them; `State.powerOn` takes every other choice. -/

namespace Sys2Proof.Machine

/-- The parameters of `State.reset`. DATA_ALIGN4, FETCH_ALIGN2 and SHIFT_RULE are the spec's defaults (00_scope.md R5;
notes/assumptions/3.md). DESIGN CHOICE (unsafe, notes/assumptions/2.md): MEM_SIZE and RESET_PC have no default; these
are the values 95_test_vectors.md uses. -/
def resetParams : Params where
  memSize := 0x1000
  dataAlign4 := true
  fetchAlign2 := true
  shiftRule := .mod32
  resetPc := 0x100#32

/-- DESIGN CHOICE (unsafe, notes/assumptions/4.md): INIT_REGS is unspecified (10_state.md R23); eight zeros here. -/
def resetRegs : Vector Word 8 := Vector.replicate 8 0#32

/-- DESIGN CHOICE (unsafe, notes/assumptions/5.md): the latches are unspecified at reset (10_state.md R23); zeros here. -/
def resetIR : IR where
  opcode := 0#4
  op0 := 0#4
  op1 := 0#4
  op2 := 0#4
  imm := 0#8
  ext := 0#32
  raw := 0#48

/-- DESIGN CHOICE (unsafe, notes/assumptions/6.md): what an address the memory does not list reads as. INIT_MEM is
unspecified (10_state.md R23); every memory content is still some list of cells. -/
def unlistedByte : Byte := 0#8

end Sys2Proof.Machine
end

