-- ==== Sys2Proof/Machine/State.lean ====
section
/-! DEFINITION. The state of the machine as plain data (10_state.md R11, R14, R16, R17, R21), and the state after reset. -/

namespace Sys2Proof.Machine

/-- The three faults of the hardware (60_exceptions.md R130). The hardware records a fault in STATUS and the spec gives
the whole state it leaves (R134), so the cycle that raises one answers a NEXT state whose `status` is `faulted` with
this reason; no step answers it as a host fault (notes/assumptions/8.md). Safe: nothing is stopped or left out. -/
inductive Fault where
  /-- Raised by the decoder's verdict on a reserved encoding (R132): the `reserved…` instructions. Safe. -/
  | decodeError
  /-- Raised by the header read, the extension read, and the data access of ld.off, ld.idx, st.off, st.idx (R135). Safe. -/
  | addressError
  /-- Raised by any access to a general register through a field of 8 to 15 (R137). Safe. -/
  | registerRangeError
  deriving DecidableEq, Repr

/-- Why the model answers no next state. -/
inductive Refusal where
  /-- An instruction whose meaning is not written yet; raised by no arm of this model. Safe. -/
  | notModelled (mnemonic : String)
  /-- A cycle, or an execute phase, begun while STATUS is Halted: "no further cycles are valid" and the model refuses
  (60_exceptions.md R139). Raised by `step` and by every meaning. Safe. -/
  | cycleAfterHalt
  /-- A cycle, or an execute phase, begun while STATUS is Faulted (60_exceptions.md R139). Raised by `step` and by every
  meaning. Safe. -/
  | cycleAfterFault (reason : Fault)
  /-- A shift by 32 or more under SHIFT_RULE = refuse, which gives it no meaning (44_shift.md R118). Raised by `execShift`
  under that setting only. Safe. -/
  | shiftCountRefused
  deriving DecidableEq, Repr

/-- The run state STATUS (10_state.md R17). -/
inductive Status where
  | running
  | halted
  | faulted (reason : Fault)
  deriving DecidableEq, Repr

/-- Memory as the cells that differ from what an unlisted address reads as (`Memory.wf` is the canonical form). -/
abbrev Memory := List Host.Cell

/-- The whole state. -/
structure State where
  /-- r0 to r7 (10_state.md R11). -/
  regs : Vector Word 8
  /-- The program counter (10_state.md R14). -/
  pc : Word
  /-- The instruction latches (10_state.md R16). -/
  ir : IR
  /-- STATUS (10_state.md R17). -/
  status : Status
  /-- The byte store behind the memory port (10_state.md R21). -/
  mem : Memory
  /-- The model's own: the parameters of the run, which nothing writes (10_state.md R22; notes/assumptions/1.md). -/
  params : Params
  /-- The model's own: how many free values have been drawn (notes/assumptions/7.md). -/
  freeCount : Nat
  deriving DecidableEq, Repr

/-- The state after reset, for every choice of what 10_state.md R23 leaves open: the parameters, INIT_REGS, the latches
and INIT_MEM. -/
def State.powerOn (params : Params) (initRegs : Vector Word 8) (initIR : IR) (initMem : Memory) : State where
  regs := initRegs
  pc := params.resetPc
  ir := initIR
  status := .running
  mem := initMem
  params := params
  freeCount := 0

/-- The machine right after reset with nothing loaded (10_state.md R23, 70_reset_and_hazards.md R150). -/
def State.reset : State := State.powerOn resetParams resetRegs resetIR []

end Sys2Proof.Machine
end

