-- ==== Sys2Proof/Machine/Memory.lean ====
section
/-! DEFINITION. The byte store and its big-endian words (20_memory.md R30, R33, R38). -/

namespace Sys2Proof.Machine

/-- The byte at an address. -/
def Memory.byte : Memory → Nat → Byte
  | [], _ => unlistedByte
  | c :: rest, a => if c.1 = a then c.2 else Memory.byte rest a

/-- The cells with none at address `a`. -/
def Memory.eraseCell (m : Memory) (a : Nat) : Memory := m.filter (fun c => c.1 != a)

/-- The cells with one more, put before the first cell of a greater address. -/
def Memory.insertCell : Memory → Nat → Byte → Memory
  | [], a, v => [(a, v)]
  | c :: rest, a, v => if a < c.1 then (a, v) :: c :: rest else c :: Memory.insertCell rest a v

/-- The write of one byte. Writing what an unlisted address reads as removes the cell. -/
def Memory.setByte (m : Memory) (a : Nat) (v : Byte) : Memory :=
  if v = unlistedByte then m.eraseCell a else (m.eraseCell a).insertCell a v

/-- The canonical form: addresses strictly rising, and no cell that an unlisted address would read as. -/
abbrev Memory.wf (m : Memory) : Prop :=
  m.Pairwise (fun c d => c.1 < d.1) ∧ ∀ c ∈ m, c.2 ≠ unlistedByte

/-- The four bytes at `a` as a word, the byte at `a` most significant (20_memory.md R33). -/
def Memory.word (m : Memory) (a : Nat) : Word :=
  wordOfBytes (m.byte a) (m.byte (a + 1)) (m.byte (a + 2)) (m.byte (a + 3))

/-- The bytes written from address `a` up. -/
def Memory.load (m : Memory) (a : Nat) : List Byte → Memory
  | [] => m
  | v :: rest => Memory.load (m.setByte a v) (a + 1) rest

/-- A word written at `a`, its most significant byte at `a` (20_memory.md R33). -/
def Memory.setWord (m : Memory) (a : Nat) (v : Word) : Memory := m.load a (bytesOfWord v)

end Sys2Proof.Machine
end

