-- ==== Sys2Proof/Machine/Ops.lean ====
section
/-! DEFINITION. The named operations of the register file, the memory port and the run state (10_state.md R10):
one update of State per field, the accesses that may raise, taking a fault, the halt signal, reset, and the frame of
every execute phase. -/

namespace Sys2Proof.Machine

/-- One general register written. -/
def State.setReg (s : State) (i : Nat) (v : Word) (h : i < 8) : State := { s with regs := s.regs.set i v h }

/-- RF.setpc (10_state.md R10). -/
def State.setPc (s : State) (v : Word) : State := { s with pc := v }

/-- The latches written, as a successful fetch does (10_state.md R16). -/
def State.setIR (s : State) (ir : IR) : State := { s with ir := ir }

/-- STATUS written (10_state.md R17). -/
def State.setStatus (s : State) (v : Status) : State := { s with status := v }

/-- The byte store replaced. -/
def State.setMem (s : State) (m : Memory) : State := { s with mem := m }

/-- One more free value drawn. -/
def State.drawFree (s : State) : State := { s with freeCount := s.freeCount + 1 }

/-- TAKING A FAULT, the whole of it: STATUS becomes Faulted(E). Nothing is saved and nothing is undone, there is no
handler, no vector and no mode (60_exceptions.md R134, R138). There is no return from a fault beside it: nothing
restores state, and nothing but reset clears STATUS (R139). -/
def State.raise (r : Fault) (s : State) : State := s.setStatus (.faulted r)

/-- `signal Halt`: STATUS becomes Halted (60_exceptions.md R133). -/
def State.signalHalt (s : State) : State := s.setStatus .halted

/-- Reset, an action of the outside: STATUS Running, PC at RESET_PC, registers and latches at unspecified values (the
arguments), memory as it is (70_reset_and_hazards.md R150). -/
def State.applyReset (initRegs : Vector Word 8) (initIR : IR) (s : State) : State :=
  { s with regs := initRegs, pc := s.params.resetPc, ir := initIR, status := .running }

/-- What stops a phase before its end. -/
inductive Stop where
  /-- `raise E` (00_scope.md R8). -/
  | raise (r : Fault)
  /-- The model gives no meaning. -/
  | refuse (r : Refusal)
  deriving DecidableEq, Repr

/-- RF.get: `x[f]`, or RegisterRangeError when f > 7 (10_state.md R13). -/
def rfGet (f : RegField) (s : State) : Except Stop Word :=
  if h : f.toNat < 8 then .ok (s.regs[f.toNat]'h) else .error (.raise .registerRangeError)

/-- RF.set: `x[f] <- v`, or RegisterRangeError when f > 7, and then nothing is written (10_state.md R13). -/
def rfSet (f : RegField) (v : Word) (s : State) : Except Stop State :=
  if h : f.toNat < 8 then .ok (s.setReg f.toNat v h) else .error (.raise .registerRangeError)

/-- The kinds of memory access (00_scope.md R8, 20_memory.md R36). -/
inductive AccessKind where
  /-- The header fetch. -/
  | hdr
  /-- The extension fetch. -/
  | ext
  /-- A data load or store. -/
  | data
  deriving DecidableEq, Repr

/-- Every byte of the access is a valid address, in integers, with no wrap (20_memory.md R32). -/
def inRange (p : Params) (a : Word) (n : Nat) : Bool := decide (a.toNat + n ≤ p.memSize)

/-- The alignment an access of each kind needs (20_memory.md R32, R34, R35). -/
def alignOk (p : Params) (a : Word) : AccessKind → Bool
  | .hdr => !p.fetchAlign2 || decide (a.toNat % 2 = 0)
  | .ext => true
  | .data => !p.dataAlign4 || decide (a.toNat % 4 = 0)

/-- `Valid(addr, n, kind)` (20_memory.md R32). -/
def valid (p : Params) (a : Word) (n : Nat) (k : AccessKind) : Bool := inRange p a n && alignOk p a k

/-- MP.readBytes(a, 2), the header read: byte0 and byte1 (40_fetch_unit.md R71). -/
def mpReadHeader (a : Word) (s : State) : Except Stop (Byte × Byte) :=
  if valid s.params a 2 .hdr then .ok (s.mem.byte a.toNat, s.mem.byte (a.toNat + 1)) else .error (.raise .addressError)

/-- A 4-byte big-endian read: MP.readBytes(a, 4) for the extension word, MP.readInt32(a) for data (20_memory.md R36).
The check comes before the access (R32). -/
def mpReadWord (k : AccessKind) (a : Word) (s : State) : Except Stop Word :=
  if valid s.params a 4 k then .ok (s.mem.word a.toNat) else .error (.raise .addressError)

/-- MP.writeInt32: a 4-byte big-endian write, whole or not at all (20_memory.md R32, R37). -/
def mpWriteWord (a v : Word) (s : State) : Except Stop State :=
  if valid s.params a 4 .data then .ok (s.setMem (s.mem.setWord a.toNat v)) else .error (.raise .addressError)

/-- The end of a cycle that a phase stopped: a raised fault is taken in `s`, what the phase leaves (60_exceptions.md R134). -/
def stopCycle (e : Stop) (s : State) : Host.Outcome State Fault Refusal :=
  match e with
  | .raise r => .next (s.raise r)
  | .refuse r => .refused r

/-- EX.execute's frame: the phase runs only while STATUS is Running and is refused otherwise (60_exceptions.md R139);
its body reads everything and writes one thing last, so a fault leaves the state the phase began with
(41_decode_dispatch.md R85). -/
def execute (body : State → Except Stop State) (s : State) : Host.Outcome State Fault Refusal :=
  match s.status with
  | .running =>
    match body s with
    | .ok s' => .next s'
    | .error e => stopCycle e s
  | .halted => .refused .cycleAfterHalt
  | .faulted r => .refused (.cycleAfterFault r)

end Sys2Proof.Machine
end

