-- ==== Sys2Proof/Machine/Operands.lean ====
section
/-! DEFINITION. The operand forms: the two effective addresses and the shift amount (30_encoding.md R57). -/

namespace Sys2Proof.Machine

/-- The offset form's address, (base + field * 4) mod 2^32; the nibble is unsigned (20_memory.md R41). -/
def offsetAddress (base : Word) (offset : Nibble) : Word := base + (offset.setWidth 32 <<< 2)

/-- The indexed form's address, (base + index * 4) mod 2^32; the two top bits of the index are lost (20_memory.md R41). -/
def indexedAddress (base index : Word) : Word := base + (index <<< 2)

/-- The address of ld.off and st.off; RegisterRangeError when the base field is above 7 (42_load_store.md R91, R93). -/
def eaOffset (base : RegField) (offset : Nibble) (s : State) : Except Stop Word := do
  let b ← rfGet base s
  pure (offsetAddress b offset)

/-- The address of ld.idx and st.idx, the base read before the index (42_load_store.md R92, R94). -/
def eaIndexed (base index : RegField) (s : State) : Except Stop Word := do
  let b ← rfGet base s
  let i ← rfGet index s
  pure (indexedAddress b i)

/-- Whether a shift goes left: the sign of the full 8-bit immediate decides, before any reduction (44_shift.md R116, R118). -/
def shiftsLeft (amount : BitVec 8) : Bool := decide (0 < amount.toInt)

/-- The count of a shift, 0 to 128: the immediate or its negation, formed in integers (44_shift.md R116, R119). -/
def shiftCount (amount : BitVec 8) : Nat := amount.toInt.natAbs

end Sys2Proof.Machine
end

