-- ==== Sys2Proof/Machine/Alu.lean ====
section
/-! DEFINITION. The ALU group, opcode 0x6 (43_alu.md). All arithmetic is modulo 2^32 (R109). -/

namespace Sys2Proof.Machine

/-- A two-operand form: the source is read, then the destination register, then it is written (R102, R103). -/
def aluBinary (f : Word → Word → Word) (rs rd : RegField) (s : State) : Except Stop State := do
  let a ← rfGet rs s
  let b ← rfGet rd s
  rfSet rd (f a b) s

/-- A one-operand form: the destination register is read, then written (R104 to R108). -/
def aluUnary (f : Word → Word) (rd : RegField) (s : State) : Except Stop State := do
  let b ← rfGet rd s
  rfSet rd (f b) s

/-- A register copied (R101). -/
def aluMove (rs rd : RegField) (s : State) : Except Stop State := do
  let v ← rfGet rs s
  rfSet rd v s

/-- `mov` (R101). -/
def execMov (rs rd : RegField) (s : State) : Host.Outcome State Fault Refusal :=
  execute (aluMove rs rd) s

/-- `add`: (a + b) mod 2^32, no overflow signal (R102). -/
def execAdd (rs rd : RegField) (s : State) : Host.Outcome State Fault Refusal :=
  execute (aluBinary (fun a b => a + b) rs rd) s

/-- `and`, bit by bit (R103). -/
def execAnd (rs rd : RegField) (s : State) : Host.Outcome State Fault Refusal :=
  execute (aluBinary (fun a b => a &&& b) rs rd) s

/-- `inc`; op1 is don't-care (R104). -/
def execInc (_pad : Nibble) (rd : RegField) (s : State) : Host.Outcome State Fault Refusal :=
  execute (aluUnary (fun b => b + 1#32) rd) s

/-- `inca` (R105). -/
def execInca (_pad : Nibble) (rd : RegField) (s : State) : Host.Outcome State Fault Refusal :=
  execute (aluUnary (fun b => b + 4#32) rd) s

/-- `dec` (R106). -/
def execDec (_pad : Nibble) (rd : RegField) (s : State) : Host.Outcome State Fault Refusal :=
  execute (aluUnary (fun b => b - 1#32) rd) s

/-- `deca` (R107). -/
def execDeca (_pad : Nibble) (rd : RegField) (s : State) : Host.Outcome State Fault Refusal :=
  execute (aluUnary (fun b => b - 4#32) rd) s

/-- `not`, bit by bit (R108). -/
def execNot (_pad : Nibble) (rd : RegField) (s : State) : Host.Outcome State Fault Refusal :=
  execute (aluUnary (fun b => ~~~b) rd) s

end Sys2Proof.Machine
end

