-- ==== Sys2Proof/Machine/LoadStore.lean ====
section
/-! DEFINITION. Loads and stores, opcodes 0x0 to 0x4 (42_load_store.md). The parameters of a meaning stand in the order of
its constructor's fields. -/

namespace Sys2Proof.Machine

/-- A load: the address, the memory read, then the destination write, the first failure ending it
(42_load_store.md R91, R92; 60_exceptions.md R136). -/
def loadWord (ea : State → Except Stop Word) (rd : RegField) (s : State) : Except Stop State := do
  let a ← ea s
  let v ← mpReadWord .data a s
  rfSet rd v s

/-- A store: the address, the value register, then the memory write, the first failure ending it
(42_load_store.md R93, R94; 60_exceptions.md R136). -/
def storeWord (ea : State → Except Stop Word) (rs : RegField) (s : State) : Except Stop State := do
  let a ← ea s
  let v ← rfGet rs s
  mpWriteWord a v s

/-- `ld.imm` (R90). -/
def execLdImm (rd : RegField) (_pad : Byte) (value : Word) (s : State) : Host.Outcome State Fault Refusal :=
  execute (rfSet rd value) s

/-- `ld.off` (R91). -/
def execLdOff (offset : Nibble) (base rd : RegField) (s : State) : Host.Outcome State Fault Refusal :=
  execute (loadWord (eaOffset base offset) rd) s

/-- `ld.idx` (R92). -/
def execLdIdx (base index rd : RegField) (s : State) : Host.Outcome State Fault Refusal :=
  execute (loadWord (eaIndexed base index) rd) s

/-- `st.off` (R93). -/
def execStOff (rs : RegField) (offset : Nibble) (base : RegField) (s : State) : Host.Outcome State Fault Refusal :=
  execute (storeWord (eaOffset base offset) rs) s

/-- `st.idx` (R94). -/
def execStIdx (rs base index : RegField) (s : State) : Host.Outcome State Fault Refusal :=
  execute (storeWord (eaIndexed base index) rs) s

end Sys2Proof.Machine
end

