-- ==== Sys2Proof/Machine/Reserved.lean ====
section
/-! DEFINITION. The reserved encodings: each takes the DecodeError fault, whatever its other fields hold
(45_halt_nop.md R125 to R127). The decoder's verdict comes before any register or memory access
(41_decode_dispatch.md R83). -/

namespace Sys2Proof.Machine

/-- `raise DecodeError`: no register and no memory byte is read or written (60_exceptions.md R132). -/
def raiseDecodeError (_ : State) : Except Stop State := .error (.raise .decodeError)

/-- `reserved.5` (R125). -/
def execReserved5 (_op0 : Nibble) (_pad : Byte) (s : State) : Host.Outcome State Fault Refusal :=
  execute raiseDecodeError s

/-- `reserved.8` (R125). -/
def execReserved8 (_op0 : Nibble) (_pad : Byte) (s : State) : Host.Outcome State Fault Refusal :=
  execute raiseDecodeError s

/-- `reserved.9` (R125). -/
def execReserved9 (_op0 : Nibble) (_pad : Byte) (s : State) : Host.Outcome State Fault Refusal :=
  execute raiseDecodeError s

/-- `reserved.a` (R125). -/
def execReservedA (_op0 : Nibble) (_pad : Byte) (s : State) : Host.Outcome State Fault Refusal :=
  execute raiseDecodeError s

/-- `reserved.c` (R125). -/
def execReservedC (_op0 : Nibble) (_pad : Byte) (s : State) : Host.Outcome State Fault Refusal :=
  execute raiseDecodeError s

/-- `reserved.d` (R125). -/
def execReservedD (_op0 : Nibble) (_pad : Byte) (s : State) : Host.Outcome State Fault Refusal :=
  execute raiseDecodeError s

/-- `reserved.e` (R125). -/
def execReservedE (_op0 : Nibble) (_pad : Byte) (s : State) : Host.Outcome State Fault Refusal :=
  execute raiseDecodeError s

/-- `reserved.b`: the fetch has read all 6 bytes and advanced the PC by 6 (R127). -/
def execReservedB (_op0 : Nibble) (_pad : Byte) (_ext : Word) (s : State) : Host.Outcome State Fault Refusal :=
  execute raiseDecodeError s

/-- `reserved.alu` (R126). -/
def execReservedAlu (_selector : Nibble) (_pad : Byte) (s : State) : Host.Outcome State Fault Refusal :=
  execute raiseDecodeError s

end Sys2Proof.Machine
end

