-- ==== Sys2Proof/Machine/Shift.lean ====
section
/-! DEFINITION. Shift, opcode 0x7 (44_shift.md). -/

namespace Sys2Proof.Machine

/-- shl32(v, k) for k from 0 to 31 (00_scope.md R8). -/
def shl32 (v : Word) (k : Nat) : Word := v <<< k

/-- asr32(v, k) for k from 0 to 31: the sign bit fills from the left (00_scope.md R8). -/
def asr32 (v : Word) (k : Nat) : Word := v.sshiftRight k

/-- SHL(v, k) for every count, by SHIFT_RULE; none where the rule gives no meaning (R117, R118). -/
def shiftLeftBy (rule : ShiftRule) (v : Word) (k : Nat) : Option Word :=
  if k < 32 then some (shl32 v k)
  else match rule with
    | .mod32 => some (shl32 v (k % 32))
    | .saturate => some 0#32
    | .refuse => none

/-- ASR(v, k) for every count, by SHIFT_RULE; none where the rule gives no meaning (R117, R118). -/
def shiftRightBy (rule : ShiftRule) (v : Word) (k : Nat) : Option Word :=
  if k < 32 then some (asr32 v k)
  else match rule with
    | .mod32 => some (asr32 v (k % 32))
    | .saturate => some (if v.msb then 0xFFFFFFFF#32 else 0#32)
    | .refuse => none

/-- The result of a shift by a signed immediate (R116). -/
def shiftResult (rule : ShiftRule) (amount : BitVec 8) (v : Word) : Option Word :=
  if shiftsLeft amount then shiftLeftBy rule v (shiftCount amount) else shiftRightBy rule v (shiftCount amount)

/-- The register read, the shift, the register written (R116). -/
def shiftRegister (rd : RegField) (amount : BitVec 8) (s : State) : Except Stop State := do
  let v ← rfGet rd s
  match shiftResult s.params.shiftRule amount v with
  | some r => rfSet rd r s
  | none => .error (.refuse .shiftCountRefused)

/-- `shift` (R116 to R120). -/
def execShift (rd : RegField) (amount : BitVec 8) (s : State) : Host.Outcome State Fault Refusal :=
  execute (shiftRegister rd amount) s

end Sys2Proof.Machine
end

