-- ==== Sys2Proof/Machine/System.lean ====
section
/-! DEFINITION. Opcode 0xF (45_halt_nop.md R122 to R124). -/

namespace Sys2Proof.Machine

/-- `halt`: STATUS becomes Halted and nothing else changes (R122, 60_exceptions.md R133). -/
def execHalt (_pad : Byte) (s : State) : Host.Outcome State Fault Refusal :=
  execute (fun s => .ok s.signalHalt) s

/-- `nop`: nothing (R123). -/
def execNop (_pad : Byte) (s : State) : Host.Outcome State Fault Refusal :=
  execute (fun s => .ok s) s

/-- `nop.u`: nothing, for each of the fourteen selectors (R124). -/
def execNopU (_selector : Nibble) (_pad : Byte) (s : State) : Host.Outcome State Fault Refusal :=
  execute (fun s => .ok s) s

end Sys2Proof.Machine
end

