-- ==== Sys2Proof/Machine/Dispatch.lean ====
section
/-! DEFINITION. The dispatch of the execute phase: one arm per constructor (41_decode_dispatch.md R81). -/

namespace Sys2Proof.Machine

/-- EX.execute for a decoded instruction. -/
def exec (i : Instr) (s : State) : Host.Outcome State Fault Refusal :=
  match i with
  | .ldImm rd pad value => Sys2Proof.Machine.execLdImm rd pad value s
  | .ldOff offset base rd => Sys2Proof.Machine.execLdOff offset base rd s
  | .ldIdx base index rd => Sys2Proof.Machine.execLdIdx base index rd s
  | .stOff rs offset base => Sys2Proof.Machine.execStOff rs offset base s
  | .stIdx rs base index => Sys2Proof.Machine.execStIdx rs base index s
  | .mov rs rd => Sys2Proof.Machine.execMov rs rd s
  | .add rs rd => Sys2Proof.Machine.execAdd rs rd s
  | .and rs rd => Sys2Proof.Machine.execAnd rs rd s
  | .inc pad rd => Sys2Proof.Machine.execInc pad rd s
  | .inca pad rd => Sys2Proof.Machine.execInca pad rd s
  | .dec pad rd => Sys2Proof.Machine.execDec pad rd s
  | .deca pad rd => Sys2Proof.Machine.execDeca pad rd s
  | .not pad rd => Sys2Proof.Machine.execNot pad rd s
  | .shift rd amount => Sys2Proof.Machine.execShift rd amount s
  | .halt pad => Sys2Proof.Machine.execHalt pad s
  | .nop pad => Sys2Proof.Machine.execNop pad s
  | .nopU selector pad => Sys2Proof.Machine.execNopU selector pad s
  | .reserved5 op0 pad => Sys2Proof.Machine.execReserved5 op0 pad s
  | .reserved8 op0 pad => Sys2Proof.Machine.execReserved8 op0 pad s
  | .reserved9 op0 pad => Sys2Proof.Machine.execReserved9 op0 pad s
  | .reservedA op0 pad => Sys2Proof.Machine.execReservedA op0 pad s
  | .reservedC op0 pad => Sys2Proof.Machine.execReservedC op0 pad s
  | .reservedD op0 pad => Sys2Proof.Machine.execReservedD op0 pad s
  | .reservedE op0 pad => Sys2Proof.Machine.execReservedE op0 pad s
  | .reservedB op0 pad ext => Sys2Proof.Machine.execReservedB op0 pad ext s
  | .reservedAlu selector pad => Sys2Proof.Machine.execReservedAlu selector pad s

end Sys2Proof.Machine
end

