-- ==== Sys2Proof/Machine/Fetch.lean ====
section
/-! DEFINITION. The fetch unit (40_fetch_unit.md), and the loader's placing of bytes (70_reset_and_hazards.md R152). -/

namespace Sys2Proof.Machine

/-- The latches a fetch makes of the bytes at the PC: the header read, then the extension read when the opcode asks for
one, at (PC + 2) mod 2^32 (40_fetch_unit.md R70, R71, R73, R74). It changes no state. -/
def fetchLatches (s : State) : Except Stop IR := do
  let h ← mpReadHeader s.pc s
  if hasExtension (highNibble h.1) then
    let e ← mpReadWord .ext (s.pc + 2#32) s
    pure (latchFields h.1 h.2 e)
  else
    pure (latchFields h.1 h.2 0#32)

/-- The PC after a fetch: advanced by the length, modulo 2^32 (40_fetch_unit.md R76, R77). -/
def nextPc (pc : Word) (ir : IR) : Word := pc + BitVec.ofNat 32 (instrLength ir.opcode)

/-- FU.fetch: the reads, then the commit of the latches and the PC (40_fetch_unit.md R70, R78). -/
def fetch (s : State) : Except Stop State := do
  let ir ← fetchLatches s
  pure ((s.setIR ir).setPc (nextPc s.pc ir))

/-- Seven latches cut from free bits. -/
def latchesOfBits (b : BitVec 104) : IR where
  opcode := b.extractLsb' 100 4
  op0 := b.extractLsb' 96 4
  op1 := b.extractLsb' 92 4
  op2 := b.extractLsb' 88 4
  imm := b.extractLsb' 80 8
  ext := b.extractLsb' 48 32
  raw := b.extractLsb' 0 48

/-- What a fetch that raised AddressError leaves: the PC, the registers and memory as they were, and latches that may
hold anything, a free value (40_fetch_unit.md R75; notes/assumptions/7.md). -/
def fetchFailed (s : State) : State :=
  (s.setIR (latchesOfBits (Config.freeLatches s.freeCount))).drawFree

/-- One byte placed by the outside, if the address is valid. -/
def State.placeByte (s : State) (a : Nat) (v : Byte) : State :=
  if a < s.params.memSize then s.setMem (s.mem.setByte a v) else s

/-- Bytes placed from address `a` up. -/
def State.placeBytes (s : State) (a : Nat) : List Byte → State
  | [] => s
  | v :: rest => State.placeBytes (s.placeByte a v) (a + 1) rest

end Sys2Proof.Machine
end

