-- ==== Sys2Proof/Machine/Step.lean ====
section
/-! DEFINITION. One cycle (41_decode_dispatch.md R80), and the placing of an instruction word where the next fetch reads. -/

namespace Sys2Proof.Machine

/-- CORE.cycle: the fetch phase, then the execute phase on the instruction in the latches. A fault in the fetch phase
ends the cycle (40_fetch_unit.md R75). From Halted or Faulted there is no cycle and the call is refused
(60_exceptions.md R139). -/
def step (s : State) : Host.Outcome State Fault Refusal :=
  match s.status with
  | .running =>
    match fetch s with
    | .ok s' => exec (decodeIR s'.ir) s'
    | .error e => stopCycle e (fetchFailed s)
  | .halted => .refused .cycleAfterHalt
  | .faulted r => .refused (.cycleAfterFault r)

/-- The loader's part (70_reset_and_hazards.md R152): the instruction's six bytes stored where the next fetch reads them,
the header at the PC and the extension at (PC + 2) mod 2^32 (40_fetch_unit.md R74; notes/assumptions/17.md). -/
def State.withFetchWord (s : State) (nbits w : Nat) : State :=
  ((s.placeBytes s.pc.toNat ((tableBytes nbits w).take 2)).placeBytes (s.pc + 2#32).toNat ((tableBytes nbits w).drop 2))

end Sys2Proof.Machine
end

