-- ==== Sys2Proof/Machine/Flags.lean ====
section
/-! DEFINITION. The status read-outs. There are no flags, condition codes or predicates, and no instruction computes one
(10_state.md R18), so the file holds no flag computation: what the outside reads of a cycle is its outcome and the
codes of STATUS (60_exceptions.md R130, R131). -/

namespace Sys2Proof.Machine

/-- The five outcomes of a cycle (60_exceptions.md R130). -/
inductive CycleOutcome where
  | continued
  | halted
  | faulted (reason : Fault)
  deriving DecidableEq, Repr

/-- The outcome of the cycle that left the state `s` (41_decode_dispatch.md R80). -/
def State.cycleOutcome (s : State) : CycleOutcome :=
  match s.status with
  | .running => .continued
  | .halted => .halted
  | .faulted r => .faulted r

/-- The code of STATUS (60_exceptions.md R131). -/
def statusCode : Status → Nat
  | .running => 0
  | .halted => 1
  | .faulted _ => 2

/-- The code of the fault reason, 0 for none (60_exceptions.md R131). -/
def reasonCode : Status → Nat
  | .running => 0
  | .halted => 0
  | .faulted .decodeError => 1
  | .faulted .addressError => 2
  | .faulted .registerRangeError => 3

end Sys2Proof.Machine
end

