-- ==== Sys2Proof/Safety.lean ====
section
/-! DEFINITION. What the claims mean: the validity of an access, the code at the PC, the fields an instruction uses as
registers, the addresses it reaches, a good state and a safe run. Written from the spec's tables, apart from the
machine's own text. -/

namespace Sys2Proof

open Machine

/-- `Valid(a, 2, hdr)` (20_memory.md R32, R35). -/
abbrev validHeader (p : Params) (a : Word) : Prop := a.toNat + 2 ≤ p.memSize ∧ (p.fetchAlign2 = true → a.toNat % 2 = 0)

/-- `Valid(a, 4, ext)`: never alignment-checked (20_memory.md R32, R35). -/
abbrev validExtension (p : Params) (a : Word) : Prop := a.toNat + 4 ≤ p.memSize

/-- `Valid(a, 4, data)` (20_memory.md R32, R34). -/
abbrev validData (p : Params) (a : Word) : Prop := a.toNat + 4 ≤ p.memSize ∧ (p.dataAlign4 = true → a.toNat % 4 = 0)

/-- `s` with the register that a field of 0 to 7 names holding `v`, and nothing else changed. -/
def withReg (s : State) (f : RegField) (h : f.toNat < 8) (v : Word) : State :=
  { regs := s.regs.set f.toNat v h, pc := s.pc, ir := s.ir, status := s.status, mem := s.mem, params := s.params,
    freeCount := s.freeCount }

/-- byte0 of the instruction at the PC (00_scope.md R6). -/
def byte0At (s : State) : Byte := s.mem.byte s.pc.toNat

/-- byte1 of the instruction at the PC. -/
def byte1At (s : State) : Byte := s.mem.byte (s.pc.toNat + 1)

/-- Whether the instruction at the PC is 6 bytes long: opcode 0x0 or 0xB (30_encoding.md R55). -/
abbrev longAt (s : State) : Prop := (byte0At s).toNat / 16 = 0 ∨ (byte0At s).toNat / 16 = 11

/-- The four bytes from (PC + 2) mod 2^32 up (40_fetch_unit.md R74). -/
def extensionAt (s : State) : List Byte :=
  let a := (s.pc + 2#32).toNat
  [s.mem.byte a, s.mem.byte (a + 1), s.mem.byte (a + 2), s.mem.byte (a + 3)]

/-- The bytes of the instruction at the PC. -/
def codeBytes (s : State) : List Byte :=
  if longAt s then byte0At s :: byte1At s :: extensionAt s else [byte0At s, byte1At s]

/-- The length of the instruction at the PC. -/
def codeLength (s : State) : Nat := if longAt s then 6 else 2

/-- Every read the fetch at the PC makes is valid (40_fetch_unit.md R71, R74, R75). -/
abbrev codeReadable (s : State) : Prop :=
  validHeader s.params s.pc ∧ (longAt s → validExtension s.params (s.pc + 2#32))

/-- The extension word of the instruction at the PC, 0 for a 2-byte one (40_fetch_unit.md R74). -/
def extAt (s : State) : Word :=
  if longAt s then
    let a := (s.pc + 2#32).toNat
    s.mem.byte a ++ s.mem.byte (a + 1) ++ s.mem.byte (a + 2) ++ s.mem.byte (a + 3)
  else 0#32

/-- What the latches hold after a successful fetch, slice by slice (10_state.md R16). -/
def codeLatches (s : State) : IR where
  opcode := BitVec.ofNat 4 ((byte0At s).toNat / 16)
  op0 := BitVec.ofNat 4 ((byte0At s).toNat % 16)
  op1 := BitVec.ofNat 4 ((byte1At s).toNat / 16)
  op2 := BitVec.ofNat 4 ((byte1At s).toNat % 16)
  imm := byte1At s
  ext := extAt s
  raw := byte0At s ++ byte1At s ++ extAt s

/-- A byte0 whose encoding has no meaning: opcodes 0x5, 0x8 to 0xE, and 0x6 with op0 from 0x8 (60_exceptions.md R132). -/
abbrev reservedByte0 (b : Byte) : Prop :=
  b.toNat / 16 = 5 ∨ (8 ≤ b.toNat / 16 ∧ b.toNat / 16 ≤ 14) ∨ (b.toNat / 16 = 6 ∧ 8 ≤ b.toNat % 16)

/-- The register fields an instruction reads, in the order it reads them (10_state.md R12). -/
def Instr.readFields : Instr → List RegField
  | .ldOff _ base _ => [base]
  | .ldIdx base index _ => [base, index]
  | .stOff rs _ base => [base, rs]
  | .stIdx rs base index => [base, index, rs]
  | .mov rs _ => [rs]
  | .add rs rd | .and rs rd => [rs, rd]
  | .inc _ rd | .inca _ rd | .dec _ rd | .deca _ rd | .not _ rd => [rd]
  | .shift rd _ => [rd]
  | .ldImm _ _ _ | .halt _ | .nop _ | .nopU _ _ => []
  | .reserved5 _ _ | .reserved8 _ _ | .reserved9 _ _ | .reservedA _ _ | .reservedC _ _ | .reservedD _ _
  | .reservedE _ _ | .reservedB _ _ _ | .reservedAlu _ _ => []

/-- The register field an instruction writes, if any (10_state.md R12). -/
def Instr.written : Instr → Option RegField
  | .ldImm rd _ _ | .ldOff _ _ rd | .ldIdx _ _ rd | .mov _ rd | .add _ rd | .and _ rd => some rd
  | .inc _ rd | .inca _ rd | .dec _ rd | .deca _ rd | .not _ rd | .shift rd _ => some rd
  | .stOff _ _ _ | .stIdx _ _ _ | .halt _ | .nop _ | .nopU _ _ => none
  | .reserved5 _ _ | .reserved8 _ _ | .reserved9 _ _ | .reservedA _ _ | .reservedC _ _ | .reservedD _ _
  | .reservedE _ _ | .reservedB _ _ _ | .reservedAlu _ _ => none

/-- Every field an instruction uses as a register index (60_exceptions.md R137). -/
def Instr.usedFields (i : Instr) : List RegField := i.readFields ++ i.written.toList

/-- The address a load reads, computed as its meaning computes it; none when an address register's field is above 7, and
for every other instruction. -/
def Instr.loadAddress (i : Instr) (s : State) : Option Word :=
  match i with
  | .ldOff offset base _ => (eaOffset base offset s).toOption
  | .ldIdx base index _ => (eaIndexed base index s).toOption
  | .ldImm _ _ _ | .stOff _ _ _ | .stIdx _ _ _ | .mov _ _ | .add _ _ | .and _ _ => none
  | .inc _ _ | .inca _ _ | .dec _ _ | .deca _ _ | .not _ _ | .shift _ _ | .halt _ | .nop _ | .nopU _ _ => none
  | .reserved5 _ _ | .reserved8 _ _ | .reserved9 _ _ | .reservedA _ _ | .reservedC _ _ | .reservedD _ _
  | .reservedE _ _ | .reservedB _ _ _ | .reservedAlu _ _ => none

/-- The address a store writes and the field of the value register, computed as its meaning computes it; none when an
address register's field is above 7, and for every other instruction. -/
def Instr.storeAddress (i : Instr) (s : State) : Option (Word × RegField) :=
  match i with
  | .stOff rs offset base => (eaOffset base offset s).toOption.map (fun a => (a, rs))
  | .stIdx rs base index => (eaIndexed base index s).toOption.map (fun a => (a, rs))
  | .ldImm _ _ _ | .ldOff _ _ _ | .ldIdx _ _ _ | .mov _ _ | .add _ _ | .and _ _ => none
  | .inc _ _ | .inca _ _ | .dec _ _ | .deca _ _ | .not _ _ | .shift _ _ | .halt _ | .nop _ | .nopU _ _ => none
  | .reserved5 _ _ | .reserved8 _ _ | .reserved9 _ _ | .reservedA _ _ | .reservedC _ _ | .reservedD _ _
  | .reservedE _ _ | .reservedB _ _ _ | .reservedAlu _ _ => none

/-- The invariant of the machine: MEM_SIZE is legal, memory is in its canonical form, and memory lists only valid
addresses (20_memory.md R31). -/
structure Machine.State.Inv (s : State) : Prop where
  params_legal : s.params.legal
  mem_wf : s.mem.wf
  mem_valid : ∀ c ∈ s.mem, c.1 < s.params.memSize

/-- `k` cycles lead from `s` to `t`, each of them to a next state. -/
def runsTo (k : Nat) (s t : State) : Prop := Host.Core.run core k s = .next t

/-- The run is over: STATUS is Halted or Faulted (60_exceptions.md R139). -/
def runOver (s : State) : Prop := s.status ≠ .running

/-- A safe run: `k` cycles complete and none of them faulted (a fault would end the run, 60_exceptions.md R138). -/
def safeFor (k : Nat) (s : State) : Prop := ∃ t, runsTo k s t ∧ ∀ r, t.status ≠ .faulted r

end Sys2Proof
end

