-- ==== Sys2Proof/Certificates/Slice0/Obligations.lean ====
section
/-! DEFINITION. The statements for the provers. Register fields are four bits wide: `h : f.toNat < 8` says that a field
names a register, and `st.regs[f.toNat]` is the register it names. -/

open Sys2Proof Sys2Proof.Machine

/-! ### Encoding -/

/-- Decoding an encoded well-formed instruction gives it back, with every operand, don't-care and ignored field at every
value, whatever bytes follow (30_encoding.md R56, R58, R59). -/
def Obligations.DecodeInvertsEncode : Prop :=
  ∀ (i : Instr) (rest : List Byte), i.wf = true → decode (encode i ++ rest) = .ok (i, rest)

/-- What decodes is a well-formed instruction, and encoding it gives the very bytes back, so no two byte strings of the
same length stand for one instruction (30_encoding.md R56, R65). -/
def Obligations.EncodeInvertsDecode : Prop :=
  ∀ (bs : List Byte) (i : Instr) (rest : List Byte), decode bs = .ok (i, rest) → i.wf = true ∧ encode i ++ rest = bs

/-- R55: the length is 6 when the top nibble of byte0 is 0x0 or 0xB and 2 otherwise, whatever the other nibbles and the
state are: the decoder takes that many bytes, and the PC advances by that much in a cycle whose fetch succeeds. -/
def Obligations.LengthComesFromOpcodeNibble : Prop :=
  (∀ (b0 b1 : Byte) (rest : List Byte),
    let n := if b0.toNat / 16 = 0 ∨ b0.toNat / 16 = 11 then 6 else 2
    (n ≤ rest.length + 2 → ∃ i, decode (b0 :: b1 :: rest) = .ok (i, rest.drop (n - 2)) ∧ (encode i).length = n) ∧
    (rest.length + 2 < n → decode (b0 :: b1 :: rest) = .error .truncatedExtension)) ∧
  ∀ s t : State, codeReadable s → step s = .next t →
    t.pc = s.pc + (if (byte0At s).toNat / 16 = 0 ∨ (byte0At s).toNat / 16 = 11 then 6#32 else 2#32)

/-- Words written out from 30_encoding.md R66 and 95_test_vectors.md decode to the instructions they stand for. -/
def Obligations.SpecWordsDecode : Prop :=
  decode [0x03#8, 0xAB#8, 0x12#8, 0x34#8, 0x56#8, 0x78#8] = .ok (.ldImm 3#4 0xAB#8 0x12345678#32, []) ∧
  decode [0x32#8, 0x20#8] = .ok (.stOff 2#4 2#4 0#4, []) ∧
  decode [0x61#8, 0x12#8] = .ok (.add 1#4 2#4, []) ∧
  decode [0x72#8, 0xFE#8] = .ok (.shift 2#4 0xFE#8, []) ∧
  decode [0xF7#8, 0x00#8] = .ok (.nopU 7#4 0#8, []) ∧
  decode [0xB0#8, 0x00#8, 0x00#8, 0x00#8, 0x01#8, 0x00#8] = .ok (.reservedB 0#4 0#8 0x100#32, [])

/-- R82: the row the decoder selects depends on `IR.opcode` and `IR.op0` alone: two latch contents that agree on these
two, and may differ in op1, op2, imm, ext and raw, select the same row. -/
def Obligations.RowSelectedByOpcodeAndOp0 : Prop :=
  ∀ ir ir' : IR, ir.opcode = ir'.opcode → ir.op0 = ir'.op0 → (decodeIR ir).mnemonic = (decodeIR ir').mnemonic

/-! ### The cycle and the fetch unit -/

/-- A cycle runs the instruction that the bytes at the PC decode to: the execute phase sees the latches of that
instruction and the PC already advanced by its length (41_decode_dispatch.md R80, 40_fetch_unit.md R78). -/
def Obligations.StepRunsDecodedInstruction : Prop :=
  ∀ (s : State) (i : Instr), s.status = .running → codeReadable s → decode (codeBytes s) = .ok (i, []) →
    step s = exec i { s with ir := codeLatches s, pc := s.pc + BitVec.ofNat 32 (codeLength s) }

/-- R72: the fetch extracts all five header fields for every instruction, with no range check: it succeeds whatever the
nibbles are, and the latches hold the nibbles of byte0 and byte1 and byte1 as a signed number. -/
def Obligations.FetchExtractsHeaderFields : Prop :=
  ∀ s : State, codeReadable s → ∃ t, fetch s = .ok t ∧
    t.ir.opcode.toNat = (byte0At s).toNat / 16 ∧ t.ir.op0.toNat = (byte0At s).toNat % 16 ∧
    t.ir.op1.toNat = (byte1At s).toNat / 16 ∧ t.ir.op2.toNat = (byte1At s).toNat % 16 ∧
    t.ir.imm.toInt = (if (byte1At s).toNat ≤ 127 then ((byte1At s).toNat : Int) else (byte1At s).toNat - 256)

/-- R73: the extension word is read when and only when the opcode nibble is 0x0 or 0xB. For another opcode the fetch
needs the header alone, latches ext = 0, and does not depend on any byte beyond PC+1; for those two it also needs the
extension to be valid. -/
def Obligations.ExtensionReadForTwoOpcodesOnly : Prop :=
  (∀ s : State, (∃ t, fetch s = .ok t) ↔
    validHeader s.params s.pc ∧
      ((byte0At s).toNat / 16 = 0 ∨ (byte0At s).toNat / 16 = 11 → validExtension s.params (s.pc + 2#32))) ∧
  ∀ (s t : State) (m : Memory), ¬ ((byte0At s).toNat / 16 = 0 ∨ (byte0At s).toNat / 16 = 11) → fetch s = .ok t →
    m.byte s.pc.toNat = byte0At s → m.byte (s.pc.toNat + 1) = byte1At s →
    t.ir.ext = 0#32 ∧ fetch { s with mem := m } = .ok { t with mem := m }

/-- A fetch with an invalid read ends the cycle in Faulted(AddressError) with the PC, the registers and memory as they
were; of the latches nothing is said (40_fetch_unit.md R75; a free value, 92_eei_decisions.md D12, log 7). -/
def Obligations.FetchFaultLeavesPcAndState : Prop :=
  ∀ s : State, s.status = .running → ¬ codeReadable s →
    ∃ ir n, step s = .next { s with ir := ir, freeCount := n, status := .faulted .addressError }

/-- R76: a fetch that succeeds writes the PC, advanced by 6 for opcodes 0x0 and 0xB and by 2 otherwise, modulo 2^32,
and the cycle leaves it there for every instruction: halts, decode errors and faults of the execute phase are not
rolled back (what the spec's decision D6 adds, log 14, is that the sum wraps at 2^32 and is no fault). -/
def Obligations.PcAdvancesForEveryInstruction : Prop :=
  (∀ s u : State, fetch s = .ok u →
    u.pc.toNat = (s.pc.toNat + (if (byte0At s).toNat / 16 = 0 ∨ (byte0At s).toNat / 16 = 11 then 6 else 2)) % 4294967296) ∧
  ∀ s t : State, codeReadable s → step s = .next t →
    t.pc.toNat = (s.pc.toNat + (if (byte0At s).toNat / 16 = 0 ∨ (byte0At s).toNat / 16 = 11 then 6 else 2)) % 4294967296

/-- The execute phase of every instruction leaves the PC, the latches and the parameters alone
(41_decode_dispatch.md R87, 10_state.md R15, R22). -/
def Obligations.ExecuteKeepsPcAndLatches : Prop :=
  ∀ (i : Instr) (s t : State), exec i s = .next t →
    t.pc = s.pc ∧ t.ir = s.ir ∧ t.params = s.params ∧ t.freeCount = s.freeCount

/-- A fetch that ends exactly at MEM_SIZE < 2^32 leaves PC = MEM_SIZE, and if the run goes on the next cycle is an
AddressError with the PC left there (40_fetch_unit.md R77; the sum modulo 2^32 is the spec's own decision D6, log 14). -/
def Obligations.FetchRunsOffTheEndOfMemory : Prop :=
  ∀ s t : State, s.params.memSize < 4294967296 → codeReadable s → s.pc.toNat + codeLength s = s.params.memSize →
    step s = .next t → t.pc.toNat = s.params.memSize ∧
      (t.status = .running → ∃ u, step t = .next u ∧ u.status = .faulted .addressError ∧ u.pc = t.pc)

/-! ### Loads and stores -/

/-- R90: `ld.imm` decodes from `0d -- v v v v`, writes the extension word bit for bit to its register whatever byte1 is,
and raises RegisterRangeError with nothing written when its field is above 7. -/
def Obligations.LoadImmediateResult : Prop :=
  ∀ (rd : RegField) (pad : Byte) (v : Word) (st : State), st.status = .running →
    (∀ rest, decode ([packNibbles 0x0#4 rd, pad] ++ bytesOfWord v ++ rest) = .ok (.ldImm rd pad v, rest)) ∧
    (∀ h : rd.toNat < 8, exec (.ldImm rd pad v) st = .next (withReg st rd h v)) ∧
    (8 ≤ rd.toNat → exec (.ldImm rd pad v) st = .next { st with status := .faulted .registerRangeError })

/-- `ld.off`, every form (42_load_store.md R91): the base plus 4 times the unsigned nibble modulo 2^32, a big-endian word
read there into the destination. Which fault is reported when several apply is the spec's own decision D11. -/
def Obligations.LoadOffsetResult : Prop :=
  ∀ (p : Nibble) (base rd : RegField) (st : State), st.status = .running →
    (8 ≤ base.toNat → exec (.ldOff p base rd) st = .next { st with status := .faulted .registerRangeError }) ∧
    ∀ hb : base.toNat < 8,
      let ea : Word := BitVec.ofNat 32 (st.regs[base.toNat].toNat + 4 * p.toNat)
      (¬ validData st.params ea → exec (.ldOff p base rd) st = .next { st with status := .faulted .addressError }) ∧
      (validData st.params ea →
        (8 ≤ rd.toNat → exec (.ldOff p base rd) st = .next { st with status := .faulted .registerRangeError }) ∧
        ∀ hd : rd.toNat < 8, exec (.ldOff p base rd) st =
          .next (withReg st rd hd (st.mem.byte ea.toNat ++ st.mem.byte (ea.toNat + 1) ++
            st.mem.byte (ea.toNat + 2) ++ st.mem.byte (ea.toNat + 3))))

/-- `ld.idx`, every form (42_load_store.md R92): the base plus 4 times the index modulo 2^32, a big-endian word read there
into the destination. Which fault is reported when several apply is the spec's own decision D11. -/
def Obligations.LoadIndexedResult : Prop :=
  ∀ (base index rd : RegField) (st : State), st.status = .running →
    (8 ≤ base.toNat ∨ 8 ≤ index.toNat →
      exec (.ldIdx base index rd) st = .next { st with status := .faulted .registerRangeError }) ∧
    ∀ (hb : base.toNat < 8) (hi : index.toNat < 8),
      let ea : Word := BitVec.ofNat 32 (st.regs[base.toNat].toNat + 4 * st.regs[index.toNat].toNat)
      (¬ validData st.params ea → exec (.ldIdx base index rd) st = .next { st with status := .faulted .addressError }) ∧
      (validData st.params ea →
        (8 ≤ rd.toNat → exec (.ldIdx base index rd) st = .next { st with status := .faulted .registerRangeError }) ∧
        ∀ hd : rd.toNat < 8, exec (.ldIdx base index rd) st =
          .next (withReg st rd hd (st.mem.byte ea.toNat ++ st.mem.byte (ea.toNat + 1) ++
            st.mem.byte (ea.toNat + 2) ++ st.mem.byte (ea.toNat + 3))))

/-- `st.off`, every form (42_load_store.md R93): the base plus 4 times the unsigned nibble modulo 2^32, the value register
written there as a word, nothing else. Which fault is reported when several apply is the spec's own decision D11. -/
def Obligations.StoreOffsetResult : Prop :=
  ∀ (rs : RegField) (p : Nibble) (base : RegField) (st : State), st.status = .running →
    (8 ≤ base.toNat ∨ 8 ≤ rs.toNat →
      exec (.stOff rs p base) st = .next { st with status := .faulted .registerRangeError }) ∧
    ∀ (hb : base.toNat < 8) (hs : rs.toNat < 8),
      let ea : Word := BitVec.ofNat 32 (st.regs[base.toNat].toNat + 4 * p.toNat)
      (¬ validData st.params ea → exec (.stOff rs p base) st = .next { st with status := .faulted .addressError }) ∧
      (validData st.params ea →
        exec (.stOff rs p base) st = .next { st with mem := st.mem.setWord ea.toNat st.regs[rs.toNat] })

/-- `st.idx`, every form (42_load_store.md R94): the base plus 4 times the index modulo 2^32, the value register written
there as a word, nothing else. Which fault is reported when several apply is the spec's own decision D11. -/
def Obligations.StoreIndexedResult : Prop :=
  ∀ (rs base index : RegField) (st : State), st.status = .running →
    (8 ≤ base.toNat ∨ 8 ≤ index.toNat ∨ 8 ≤ rs.toNat →
      exec (.stIdx rs base index) st = .next { st with status := .faulted .registerRangeError }) ∧
    ∀ (hb : base.toNat < 8) (hi : index.toNat < 8) (hs : rs.toNat < 8),
      let ea : Word := BitVec.ofNat 32 (st.regs[base.toNat].toNat + 4 * st.regs[index.toNat].toNat)
      (¬ validData st.params ea → exec (.stIdx rs base index) st = .next { st with status := .faulted .addressError }) ∧
      (validData st.params ea →
        exec (.stIdx rs base index) st = .next { st with mem := st.mem.setWord ea.toNat st.regs[rs.toNat] })

/-! ### The ALU group and shift -/

/-- What a two-operand ALU rule says: the encoding `b0 sd`, the result in the destination and nothing else changed, and
RegisterRangeError with nothing written when either field is above 7. -/
def Sys2Proof.twoRegisterRule (op : RegField → RegField → Instr) (b0 : Byte) (f : Word → Word → Word) : Prop :=
  ∀ (rs rd : RegField) (st : State), st.status = .running →
    (∀ rest, decode (b0 :: packNibbles rs rd :: rest) = .ok (op rs rd, rest)) ∧
    (∀ (hs : rs.toNat < 8) (hd : rd.toNat < 8), exec (op rs rd) st =
      .next (withReg st rd hd (f st.regs[rs.toNat] st.regs[rd.toNat]))) ∧
    (8 ≤ rs.toNat ∨ 8 ≤ rd.toNat → exec (op rs rd) st = .next { st with status := .faulted .registerRangeError })

/-- What a one-operand ALU rule says: the encoding `b0 -d`, the result in the register and nothing else changed whatever
op1 is, and RegisterRangeError with nothing written when the field is above 7. -/
def Sys2Proof.oneRegisterRule (op : Nibble → RegField → Instr) (b0 : Byte) (f : Word → Word) : Prop :=
  ∀ (pad : Nibble) (rd : RegField) (st : State), st.status = .running →
    (∀ rest, decode (b0 :: packNibbles pad rd :: rest) = .ok (op pad rd, rest)) ∧
    (∀ hd : rd.toNat < 8, exec (op pad rd) st =
      .next (withReg st rd hd (f st.regs[rd.toNat]))) ∧
    (8 ≤ rd.toNat → exec (op pad rd) st = .next { st with status := .faulted .registerRangeError })

/-- R101, R102, R103: mov, add and and, each in every form; the sum is taken of the unsigned values modulo 2^32, the
conjunction bit by bit. -/
def Obligations.TwoRegisterAluResults : Prop :=
  twoRegisterRule .mov 0x60#8 (fun a _ => a) ∧
  twoRegisterRule .add 0x61#8 (fun a b => BitVec.ofNat 32 (a.toNat + b.toNat)) ∧
  twoRegisterRule .and 0x62#8 (fun a b => a &&& b)

/-- R104 to R108: inc, inca, dec, deca and not, each in every form; sums and differences are taken in integers modulo
2^32, and not is 0xFFFFFFFF minus the unsigned value. -/
def Obligations.OneRegisterAluResults : Prop :=
  oneRegisterRule .inc 0x63#8 (fun b => BitVec.ofNat 32 (b.toNat + 1)) ∧
  oneRegisterRule .inca 0x64#8 (fun b => BitVec.ofNat 32 (b.toNat + 4)) ∧
  oneRegisterRule .dec 0x65#8 (fun b => BitVec.ofInt 32 (b.toInt - 1)) ∧
  oneRegisterRule .deca 0x66#8 (fun b => BitVec.ofInt 32 (b.toInt - 4)) ∧
  oneRegisterRule .not 0x67#8 (fun b => BitVec.ofNat 32 (4294967295 - b.toNat))

/-- `not` then `inc` on one register negates it in two's complement (43_alu.md R108). -/
def Obligations.NotThenIncNegates : Prop :=
  ∀ (p p' : Nibble) (rd : RegField) (hd : rd.toNat < 8) (st : State), st.status = .running →
    ∃ u, exec (.not p rd) st = .next u ∧
      exec (.inc p' rd) u = .next (withReg st rd hd (BitVec.ofInt 32 (- st.regs[rd.toNat].toInt)))

/-- `shift` decodes from `7d vv`, and the sign of its immediate picks the direction (44_shift.md R116). For counts 0 to 31,
under every SHIFT_RULE, a left shift is (u(v) * 2^k) mod 2^32 and a right shift is floor(s(v) / 2^k) (R117), in the
register and nothing else changed. A field above 7 is a RegisterRangeError with nothing written: that such a field
faults is the spec's own decision D8, log 12. -/
def Obligations.ShiftWithinWordResult : Prop :=
  ∀ (rd : RegField) (amount : BitVec 8) (st : State), st.status = .running →
    (∀ rest, decode (packNibbles 0x7#4 rd :: amount :: rest) = .ok (.shift rd amount, rest)) ∧
    (8 ≤ rd.toNat → exec (.shift rd amount) st = .next { st with status := .faulted .registerRangeError }) ∧
    ∀ hd : rd.toNat < 8,
      (0 < amount.toInt → amount.toInt ≤ 31 → exec (.shift rd amount) st =
        .next (withReg st rd hd (BitVec.ofNat 32 (st.regs[rd.toNat].toNat * 2 ^ amount.toInt.toNat)))) ∧
      (-31 ≤ amount.toInt → amount.toInt ≤ 0 → exec (.shift rd amount) st =
        .next (withReg st rd hd (BitVec.ofInt 32 (st.regs[rd.toNat].toInt / 2 ^ (- amount.toInt).toNat))))

/-- Counts of 32 and more, -imm formed in integers (44_shift.md R118, R119): reduced modulo 32 under mod32, all shifted out
under saturate, no meaning under refuse. SHIFT_RULE is the spec's own parameter (92_eei_decisions.md D10, log 10). -/
def Obligations.ShiftBeyondWordResult : Prop :=
  ∀ (rd : RegField) (hd : rd.toNat < 8) (amount : BitVec 8) (st : State), st.status = .running →
    (32 ≤ amount.toInt →
      (st.params.shiftRule = .mod32 → exec (.shift rd amount) st = .next (withReg st rd hd (BitVec.ofNat 32 (st.regs[rd.toNat].toNat * 2 ^ (amount.toInt.toNat % 32))))) ∧
      (st.params.shiftRule = .saturate → exec (.shift rd amount) st = .next (withReg st rd hd 0#32)) ∧
      (st.params.shiftRule = .refuse → exec (.shift rd amount) st = .refused .shiftCountRefused)) ∧
    (amount.toInt ≤ -32 →
      (st.params.shiftRule = .mod32 → exec (.shift rd amount) st = .next (withReg st rd hd (BitVec.ofInt 32 (st.regs[rd.toNat].toInt / 2 ^ ((- amount.toInt).toNat % 32))))) ∧
      (st.params.shiftRule = .saturate → exec (.shift rd amount) st = .next (withReg st rd hd (if st.regs[rd.toNat].toInt < 0 then 0xFFFFFFFF#32 else 0#32))) ∧
      (st.params.shiftRule = .refuse → exec (.shift rd amount) st = .refused .shiftCountRefused))

/-! ### Opcode 0xF and the reserved encodings -/

/-- R122: the bytes `F0 --` at the PC end the run in Halted with the PC at the halt's address plus 2, registers and memory
as they were, whatever byte1 is. -/
def Obligations.HaltCycle : Prop :=
  (∀ s : State, s.status = .running → validHeader s.params s.pc → byte0At s = 0xF0#8 →
    step s = .next { s with ir := codeLatches s, pc := s.pc + 2#32, status := .halted }) ∧
  ∀ (pad : Byte) (s : State), s.status = .running → exec (.halt pad) s = .next { s with status := .halted }

/-- R123, R124: the bytes `FF --`, and `F1 --` to `FE --`, advance the PC by 2 in the fetch and change nothing else;
STATUS stays Running. -/
def Obligations.NoOpCycle : Prop :=
  (∀ s : State, s.status = .running → validHeader s.params s.pc → 0xF1 ≤ (byte0At s).toNat →
    step s = .next { s with ir := codeLatches s, pc := s.pc + 2#32 }) ∧
  ∀ (k : Nibble) (pad : Byte) (s : State), s.status = .running →
    exec (.nop pad) s = .next s ∧ exec (.nopU k pad) s = .next s

/-- R125, R126: the reserved opcodes 0x5, 0x8, 0x9, 0xA, 0xC, 0xD, 0xE and the reserved ALU sub-selectors raise
DecodeError, whatever the other fields hold: the PC is advanced by 2 and nothing else changes. -/
def Obligations.ReservedEncodingCycle : Prop :=
  (∀ s : State, s.status = .running → validHeader s.params s.pc → reservedByte0 (byte0At s) →
    (byte0At s).toNat / 16 ≠ 11 →
    step s = .next { s with ir := codeLatches s, pc := s.pc + 2#32, status := .faulted .decodeError }) ∧
  ∀ (n : Nibble) (b : Byte) (i : Instr) (s : State), s.status = .running →
    i ∈ [.reserved5 n b, .reserved8 n b, .reserved9 n b, .reservedA n b, .reservedC n b, .reservedD n b,
      .reservedE n b, .reservedAlu n b] →
    exec i s = .next { s with status := .faulted .decodeError }

/-- Opcode 0xB (45_halt_nop.md R127): a 6-byte fetch, the extension in the latch, the PC advanced by 6, then DecodeError;
with an invalid extension, AddressError and the PC unchanged. The spec's own decision D9, log 13. -/
def Obligations.OpcodeBCycle : Prop :=
  (∀ s : State, s.status = .running → validHeader s.params s.pc → (byte0At s).toNat / 16 = 11 →
    (validExtension s.params (s.pc + 2#32) →
      step s = .next { s with ir := codeLatches s, pc := s.pc + 6#32, status := .faulted .decodeError }) ∧
    (¬ validExtension s.params (s.pc + 2#32) → ∃ t, step s = .next t ∧ t.status = .faulted .addressError ∧ t.pc = s.pc)) ∧
  ∀ (n : Nibble) (b : Byte) (e : Word) (s : State), s.status = .running →
    exec (.reservedB n b e) s = .next { s with status := .faulted .decodeError }

/-! ### Halt and the three faults -/

/-- R133: a cycle ends Halted exactly when the byte at the PC is 0xF0 and its fetch succeeds; then the PC is advanced by 2
and registers and memory are unchanged. -/
def Obligations.HaltSignalFromHaltOnly : Prop :=
  ∀ s t : State, step s = .next t →
    (t.status = .halted ↔ codeReadable s ∧ byte0At s = 0xF0#8) ∧
    (t.status = .halted → t.pc = s.pc + 2#32 ∧ t.regs = s.regs ∧ t.mem = s.mem)

/-- A cycle ends in DecodeError exactly when its fetch succeeds and byte0 is one of the reserved encodings; then the
PC is advanced by the length and registers and memory are unchanged. The fetch phase never raises it. (That opcode 0xB is
one of them is the spec's own decision D9, log 13; 60_exceptions.md R132.) -/
def Obligations.DecodeErrorExactlyOnReserved : Prop :=
  ∀ s t : State, step s = .next t →
    (t.status = .faulted .decodeError ↔ codeReadable s ∧ reservedByte0 (byte0At s)) ∧
    (t.status = .faulted .decodeError →
      t.pc = s.pc + BitVec.ofNat 32 (codeLength s) ∧ t.regs = s.regs ∧ t.mem = s.mem)

/-- R135: AddressError is raised by an invalid read of the fetch, with the PC unchanged, or by an invalid address of a
load or store, with the PC advanced by 2, and by nothing else; registers and memory are unchanged. Each of those causes
raises it; of a load or store this is said where every register field is in range, so that no other fault applies. -/
def Obligations.AddressErrorPoints : Prop :=
  (∀ s t : State, step s = .next t → t.status = .faulted .addressError →
    t.regs = s.regs ∧ t.mem = s.mem ∧
    (¬ codeReadable s ∧ t.pc = s.pc ∨
      codeReadable s ∧ t.pc = s.pc + 2#32 ∧ ∃ i a, decode (codeBytes s) = .ok (i, []) ∧ ¬ validData s.params a ∧
        (i.loadAddress s = some a ∨ ∃ f, i.storeAddress s = some (a, f)))) ∧
  (∀ s : State, s.status = .running → ¬ codeReadable s → ∃ t, step s = .next t ∧ t.status = .faulted .addressError) ∧
  ∀ (i : Instr) (s : State) (a : Word), s.status = .running → ¬ validData s.params a → (∀ f ∈ i.usedFields, f.toNat < 8) →
    (i.loadAddress s = some a ∨ ∃ f, i.storeAddress s = some (a, f)) →
    exec i s = .next { s with status := .faulted .addressError }

/-- A field of 8 to 15 used as a register index raises RegisterRangeError, and nothing else does. An instruction
with such a field ends Faulted, with that reason unless an address it can compute is invalid, when AddressError also
applies; the PC is advanced and registers and memory are unchanged. (That such a field faults is the
spec's own decision D8, log 12; 60_exceptions.md R137.) -/
def Obligations.RegisterRangeErrorFields : Prop :=
  (∀ s t : State, step s = .next t → t.status = .faulted .registerRangeError →
    t.pc = s.pc + BitVec.ofNat 32 (codeLength s) ∧ t.regs = s.regs ∧ t.mem = s.mem ∧
      ∃ i, decode (codeBytes s) = .ok (i, []) ∧ ∃ f ∈ i.usedFields, 8 ≤ f.toNat) ∧
  ∀ (i : Instr) (s : State), s.status = .running → (∃ f ∈ i.usedFields, 8 ≤ f.toNat) →
    exec i s = .next { s with status := .faulted .registerRangeError } ∨
      exec i s = .next { s with status := .faulted .addressError } ∧
        ∃ a, ¬ validData s.params a ∧ (i.loadAddress s = some a ∨ ∃ f, i.storeAddress s = some (a, f))

/-- R134: raising a fault in the execute phase changes STATUS and nothing else; in the fetch phase, STATUS and the latches,
and the execute phase does not run. -/
def Obligations.RaiseChangesOnlyStatus : Prop :=
  (∀ (i : Instr) (s t : State) (r : Fault), exec i s = .next t → t.status = .faulted r →
    t = { s with status := .faulted r }) ∧
  ∀ (s t : State) (e : Stop), fetch s = .error e → step s = .next t →
    t.status = .faulted .addressError ∧ t.regs = s.regs ∧ t.pc = s.pc ∧ t.mem = s.mem ∧ t.params = s.params

/-- Halted and Faulted are terminal: neither a cycle nor an execute phase begun there has a next state, and the model
refuses it by name (60_exceptions.md R139; the refusal is the spec's own decision D16, log 9). -/
def Obligations.TerminalStatesHaveNoCycle : Prop :=
  ∀ (s : State) (i : Instr),
    (s.status = .halted → step s = .refused .cycleAfterHalt ∧ exec i s = .refused .cycleAfterHalt) ∧
    ∀ r, s.status = .faulted r → step s = .refused (.cycleAfterFault r) ∧ exec i s = .refused (.cycleAfterFault r)

/-- Every cycle begun in Running completes in one step with a next state, unless SHIFT_RULE is refuse and the instruction
is a shift by 32 or more (70_reset_and_hazards.md R157, 60_exceptions.md R130). Two clauses are the model's choices: that
such a shift is refused by a name (44_shift.md R118 and decision D10, log 10), and that no step answers a fault of the
host's interface, since a fault of the hardware is a next state (log 8). -/
def Obligations.EveryCycleCompletes : Prop :=
  (∀ s : State, s.status = .running → s.params.shiftRule ≠ .refuse → ∃ t, step s = .next t) ∧
  (∀ s : State, s.status = .running → (∃ t, step s = .next t) ∨
    step s = .refused .shiftCountRefused ∧ s.params.shiftRule = .refuse ∧ codeReadable s ∧
      (byte0At s).toNat / 16 = 7 ∧ 32 ≤ (byte1At s).toInt.natAbs) ∧
  ∀ (s : State) (r : Fault), step s ≠ .fault r

/-- The hardware is straight-line code: with MEM_SIZE below 2^32 every run ends, by halt, fault or running off the end of
memory, within MEM_SIZE / 2 + 1 cycles (70_reset_and_hazards.md R157, 45_halt_nop.md R128). SHIFT_RULE = refuse is set
aside, since the model refuses a shift by 32 or more under it (log 10). -/
def Obligations.StraightLineRunEnds : Prop :=
  ∀ s : State, s.status = .running → s.params.memSize < 4294967296 → s.params.shiftRule ≠ .refuse →
    ∃ k t, k ≤ s.params.memSize / 2 + 1 ∧ runsTo k s t ∧ runOver t

/-! ### Frames -/

/-- R12: the execute phase writes no register but the table's, and reads none but the table's: changing the registers an
instruction does not read changes neither its outcome, nor memory, nor the value it writes. The fetch neither reads nor
writes a register, and no instruction reads or writes the PC as an operand. -/
def Obligations.RegisterAccessTable : Prop :=
  (∀ (i : Instr) (s t : State), exec i s = .next t →
    ∀ (k : Nat) (hk : k < 8), (∀ f, i.written = some f → f.toNat ≠ k) → t.regs[k] = s.regs[k]) ∧
  (∀ (i : Instr) (s t : State) (rs : Vector Word 8),
    (∀ f ∈ i.readFields, ∀ h : f.toNat < 8, rs[f.toNat] = s.regs[f.toNat]) → exec i s = .next t →
    ∃ t', exec i { s with regs := rs } = .next t' ∧ t'.status = t.status ∧ t'.mem = t.mem ∧
      (t.status = .running → ∀ f, i.written = some f → ∀ h : f.toNat < 8, t'.regs[f.toNat] = t.regs[f.toNat])) ∧
  (∀ (s t : State) (rs : Vector Word 8), fetch s = .ok t →
    t.regs = s.regs ∧ fetch { s with regs := rs } = .ok { t with regs := rs }) ∧
  ∀ (i : Instr) (s t : State) (p : Word), exec i s = .next t →
    t.pc = s.pc ∧ exec i { s with pc := p } = .next { t with pc := p }

/-- The frame of the instructions that write a register (ld.imm, ld.off, ld.idx, the ALU group, shift): no other register,
no byte of memory, not the PC, the latches or STATUS, when they complete (41_decode_dispatch.md R85, R87). -/
def Obligations.RegisterWriterFrame : Prop :=
  ∀ (i : Instr) (s t : State) (rd : RegField), i.written = some rd → exec i s = .next t → t.status = .running →
    (∀ (k : Nat) (hk : k < 8), k ≠ rd.toNat → t.regs[k] = s.regs[k]) ∧ (∀ a, t.mem.byte a = s.mem.byte a) ∧
      t.mem = s.mem ∧ t.pc = s.pc ∧ t.ir = s.ir ∧ t.params = s.params ∧ t.freeCount = s.freeCount ∧ s.status = .running

/-- The frame of the stores: every byte outside the four from the address stored to reads as before, those four hold the
value register's bytes, and no register changes; a store that faults changes no byte (42_load_store.md R97, R93, R94). -/
def Obligations.StoreFrame : Prop :=
  ∀ (i : Instr) (s t : State) (a : Word) (rs : RegField), i.storeAddress s = some (a, rs) → exec i s = .next t →
    t.regs = s.regs ∧ t.pc = s.pc ∧ t.ir = s.ir ∧ t.params = s.params ∧ t.freeCount = s.freeCount ∧
    (∀ b : Nat, b < a.toNat ∨ a.toNat + 4 ≤ b → t.mem.byte b = s.mem.byte b) ∧
    (t.status = .running → ∃ h : rs.toNat < 8,
      t.mem.byte a.toNat ++ t.mem.byte (a.toNat + 1) ++ t.mem.byte (a.toNat + 2) ++ t.mem.byte (a.toNat + 3) =
        s.regs[rs.toNat]) ∧
    (t.status ≠ .running → t.mem = s.mem)

/-- Every execute phase writes at most one place: one register, or one word of memory, or nothing; and one that ends
other than Running writes nothing (41_decode_dispatch.md R85). -/
def Obligations.ExecuteWritesAtMostOnePlace : Prop :=
  ∀ (i : Instr) (s t : State), exec i s = .next t →
    t.regs = s.regs ∧ t.mem = s.mem ∨
    t.status = .running ∧ t.mem = s.mem ∧
      (∃ (f : RegField) (h : f.toNat < 8) (v : Word), i.written = some f ∧ t.regs = s.regs.set f.toNat v h) ∨
    t.status = .running ∧ t.regs = s.regs ∧
      ∃ (a v : Word) (f : RegField), i.storeAddress s = some (a, f) ∧ validData s.params a ∧ t.mem = s.mem.setWord a.toNat v

/-! ### Memory -/

/-- R33: memory is big-endian. A word write puts the four bytes in address order, most significant first, and touches no
other byte; a word read at any address, aligned or overlapping earlier stores, is its four bytes in that order, so it
gives back a word stored there; and the fetch reads byte0 at the lower address and the extension word in the same order. -/
def Obligations.MemoryIsBigEndian : Prop :=
  (∀ (a v : Word) (s t : State), mpWriteWord a v s = .ok t →
    t.mem.byte a.toNat = v.extractLsb' 24 8 ∧ t.mem.byte (a.toNat + 1) = v.extractLsb' 16 8 ∧
    t.mem.byte (a.toNat + 2) = v.extractLsb' 8 8 ∧ t.mem.byte (a.toNat + 3) = v.extractLsb' 0 8 ∧
    (∀ b : Nat, b < a.toNat ∨ a.toNat + 4 ≤ b → t.mem.byte b = s.mem.byte b) ∧ mpReadWord .data a t = .ok v) ∧
  (∀ (k : AccessKind) (a v : Word) (s : State), mpReadWord k a s = .ok v →
    v.extractLsb' 24 8 = s.mem.byte a.toNat ∧ v.extractLsb' 16 8 = s.mem.byte (a.toNat + 1) ∧
    v.extractLsb' 8 8 = s.mem.byte (a.toNat + 2) ∧ v.extractLsb' 0 8 = s.mem.byte (a.toNat + 3)) ∧
  ∀ s t : State, fetch s = .ok t →
    t.ir.raw.extractLsb' 40 8 = s.mem.byte s.pc.toNat ∧ t.ir.raw.extractLsb' 32 8 = s.mem.byte (s.pc.toNat + 1) ∧
    t.ir.raw.extractLsb' 0 32 = t.ir.ext ∧
    (longAt s → t.ir.ext.extractLsb' 24 8 = s.mem.byte (s.pc + 2#32).toNat ∧
      t.ir.ext.extractLsb' 16 8 = s.mem.byte ((s.pc + 2#32).toNat + 1) ∧
      t.ir.ext.extractLsb' 8 8 = s.mem.byte ((s.pc + 2#32).toNat + 2) ∧
      t.ir.ext.extractLsb' 0 8 = s.mem.byte ((s.pc + 2#32).toNat + 3))

/-- A store, by either form, then a load, by either form, at the same effective address gives the stored value
(42_load_store.md R96). -/
def Obligations.StoreThenLoadReturnsValue : Prop :=
  ∀ (i j : Instr) (s t : State) (a : Word) (rs rd : RegField) (hs : rs.toNat < 8) (hd : rd.toNat < 8),
    i.storeAddress s = some (a, rs) → exec i s = .next t → t.status = .running →
    j.loadAddress t = some a → j.written = some rd →
    exec j t = .next (withReg t rd hd s.regs[rs.toNat])

/-- A word stored over the next instruction is what the next cycle executes, with nothing needed between
(20_memory.md R44): the stored bytes decode to `j`, and the next step runs `j`. -/
def Obligations.StoreIsSeenByNextFetch : Prop :=
  ∀ (i j : Instr) (s t : State) (rs : RegField) (hs : rs.toNat < 8) (rest : List Byte),
    i.storeAddress s = some (s.pc, rs) → exec i s = .next t → t.status = .running → validHeader s.params s.pc →
    decode (bytesOfWord s.regs[rs.toNat]) = .ok (j, rest) → rest.length = 2 →
    ∃ ir, step t = exec j { t with ir := ir, pc := t.pc + 2#32 }

/-- Memories in the canonical form that read alike at every address are equal data (10_state.md R21: memory is a map from
addresses to bytes). -/
def Obligations.CanonicalMemoriesAreExtensional : Prop :=
  ∀ m m' : Memory, m.wf → m'.wf → (∀ a, m.byte a = m'.byte a) → m = m'

/-! ### Whole-machine invariants, reset -/

/-- The invariant holds of the state after reset, for every legal choice of the parameters, every INIT_REGS, every latch
contents and every canonical INIT_MEM; reset keeps it, and so does placing an instruction (70_reset_and_hazards.md R150,
R152). The values of `State.reset` itself are the model's choice, logs 2 to 6. -/
def Obligations.ResetMeetsInvariant : Prop :=
  State.reset.Inv ∧
  (∀ (p : Params) (regs : Vector Word 8) (ir : IR) (m : Memory), p.legal → m.wf → (∀ c ∈ m, c.1 < p.memSize) →
    (State.powerOn p regs ir m).Inv) ∧
  (∀ (s : State) (regs : Vector Word 8) (ir : IR), s.Inv → (s.applyReset regs ir).Inv) ∧
  ∀ (s : State) (nbits w : Nat), s.Inv → (s.withFetchWord nbits w).Inv

/-- Every cycle keeps the invariant: MEM_SIZE legal, memory in its canonical form, only valid addresses listed
(20_memory.md R31, R32). -/
def Obligations.StepKeepsInvariant : Prop :=
  ∀ s t : State, s.Inv → step s = .next t → t.Inv

/-- No cycle changes a parameter (10_state.md R22). -/
def Obligations.StepKeepsParameters : Prop :=
  ∀ s t : State, step s = .next t → t.params = s.params

/-- The PC keeps its parity (20_memory.md R35). -/
def Obligations.PcKeepsParity : Prop :=
  ∀ s t : State, step s = .next t → t.pc.toNat % 2 = s.pc.toNat % 2

/-- No cycle reads a latch that an earlier cycle left: two states that differ in the latches and in the model's count of
free values only have the same outcome, the same registers, PC, memory, STATUS and parameters after a cycle, and the
same latches unless the fetch faulted (10_state.md R16, R20; 41_decode_dispatch.md R88; 90_conflicts.md C1). -/
def Obligations.StaleLatchesNeverMatter : Prop :=
  ∀ (s : State) (ir : IR) (n : Nat),
    (∀ q, step s = .refused q → step { s with ir := ir, freeCount := n } = .refused q) ∧
    ∀ t, step s = .next t → ∃ t', step { s with ir := ir, freeCount := n } = .next t' ∧
      t'.regs = t.regs ∧ t'.pc = t.pc ∧ t'.mem = t.mem ∧ t'.status = t.status ∧ t'.params = t.params ∧
      (codeReadable s → t'.ir = t.ir)

/-- Reset, as power-on and as an action on a machine in any run state: STATUS Running, PC at RESET_PC, memory not changed
by reset, registers and latches whatever they are left at (10_state.md R23, 70_reset_and_hazards.md R150: the spec's own
decision D18). That `State.reset` lists no byte of memory is the model's choice of INIT_MEM, which R23 leaves
unspecified: logs 6 and 17. -/
def Obligations.ResetValues : Prop :=
  (∀ (p : Params) (regs : Vector Word 8) (ir : IR) (m : Memory),
    (State.powerOn p regs ir m).status = .running ∧ (State.powerOn p regs ir m).pc = p.resetPc ∧
    (State.powerOn p regs ir m).mem = m ∧ (State.powerOn p regs ir m).regs = regs) ∧
  (∀ (s : State) (regs : Vector Word 8) (ir : IR),
    s.applyReset regs ir = { s with status := .running, pc := s.params.resetPc, regs := regs, ir := ir }) ∧
  State.reset.status = .running ∧ State.reset.pc = State.reset.params.resetPc ∧ State.reset.mem = []
end

