-- ==== Sys2Proof/Laws/Decode.lean ====
section
/-! SUPPORT. The small lemmas of the byte and nibble helpers, of the latches and of the length. -/

namespace Sys2Proof

@[simp] theorem highNibble_packNibbles (h l : Nibble) : highNibble (packNibbles h l) = h := by
  revert h l; decide

@[simp] theorem lowNibble_packNibbles (h l : Nibble) : lowNibble (packNibbles h l) = l := by
  revert h l; decide

@[simp] theorem packNibbles_highNibble_lowNibble (b : Byte) : packNibbles (highNibble b) (lowNibble b) = b := by
  revert b; decide

@[simp] theorem byteOfWord_wordOfBytes_zero (b0 b1 b2 b3 : Byte) : byteOfWord (wordOfBytes b0 b1 b2 b3) 0 = b0 := by
  apply BitVec.eq_of_getLsbD_eq
  intro i hi
  simp only [byteOfWord, wordOfBytes, BitVec.getLsbD_extractLsb']
  grind

@[simp] theorem byteOfWord_wordOfBytes_one (b0 b1 b2 b3 : Byte) : byteOfWord (wordOfBytes b0 b1 b2 b3) 1 = b1 := by
  apply BitVec.eq_of_getLsbD_eq
  intro i hi
  simp only [byteOfWord, wordOfBytes, BitVec.getLsbD_extractLsb']
  grind

@[simp] theorem byteOfWord_wordOfBytes_two (b0 b1 b2 b3 : Byte) : byteOfWord (wordOfBytes b0 b1 b2 b3) 2 = b2 := by
  apply BitVec.eq_of_getLsbD_eq
  intro i hi
  simp only [byteOfWord, wordOfBytes, BitVec.getLsbD_extractLsb']
  grind

@[simp] theorem byteOfWord_wordOfBytes_three (b0 b1 b2 b3 : Byte) : byteOfWord (wordOfBytes b0 b1 b2 b3) 3 = b3 := by
  apply BitVec.eq_of_getLsbD_eq
  intro i hi
  simp only [byteOfWord, wordOfBytes, BitVec.getLsbD_extractLsb']
  grind

@[simp] theorem wordOfBytes_byteOfWord (v : Word) :
    wordOfBytes (byteOfWord v 0) (byteOfWord v 1) (byteOfWord v 2) (byteOfWord v 3) = v := by
  apply BitVec.eq_of_getLsbD_eq
  intro i hi
  simp only [byteOfWord, wordOfBytes]
  grind

@[simp] theorem bytesOfWord_wordOfBytes (b0 b1 b2 b3 : Byte) : bytesOfWord (wordOfBytes b0 b1 b2 b3) = [b0, b1, b2, b3] := by
  simp [bytesOfWord]

@[simp] theorem bytesOfWord_length (v : Word) : (bytesOfWord v).length = 4 := rfl

@[simp] theorem header_length (opcode op0 : Nibble) (b : Byte) : (header opcode op0 b).length = 2 := rfl

@[simp] theorem headerNibbles_length (opcode op0 op1 op2 : Nibble) : (headerNibbles opcode op0 op1 op2).length = 2 := rfl

section Latches
variable (b0 b1 : Byte) (ext : Word)

@[simp] theorem latchFields_opcode : (latchFields b0 b1 ext).opcode = highNibble b0 := rfl
@[simp] theorem latchFields_op0 : (latchFields b0 b1 ext).op0 = lowNibble b0 := rfl
@[simp] theorem latchFields_op1 : (latchFields b0 b1 ext).op1 = highNibble b1 := rfl
@[simp] theorem latchFields_op2 : (latchFields b0 b1 ext).op2 = lowNibble b1 := rfl
@[simp] theorem latchFields_imm : (latchFields b0 b1 ext).imm = b1 := rfl
@[simp] theorem latchFields_ext : (latchFields b0 b1 ext).ext = ext := rfl
@[simp] theorem latchFields_raw : (latchFields b0 b1 ext).raw = b0 ++ b1 ++ ext := rfl

end Latches

/-- The extension is read for exactly the two opcodes of 30_encoding.md R50. -/
theorem hasExtension_iff (opcode : Nibble) : hasExtension opcode = true ↔ opcode = 0x0#4 ∨ opcode = 0xB#4 := by
  simp [hasExtension]

/-- An instruction is 2 or 6 bytes long (30_encoding.md R50). -/
theorem instrLength_cases (opcode : Nibble) :
    hasExtension opcode = true ∧ instrLength opcode = 6 ∨ hasExtension opcode = false ∧ instrLength opcode = 2 := by
  cases h : hasExtension opcode <;> simp [instrLength, h]

/-- A 2-byte instruction at the head of a byte string. -/
theorem decode_short {b0 b1 : Byte} (h : hasExtension (highNibble b0) = false) (rest : List Byte) :
    decode (b0 :: b1 :: rest) = .ok (decodeIR (latchFields b0 b1 0#32), rest) := by
  simp [decode, h]

/-- A 6-byte instruction at the head of a byte string. -/
theorem decode_long {b0 b1 : Byte} (h : hasExtension (highNibble b0) = true) (e0 e1 e2 e3 : Byte) (rest : List Byte) :
    decode (b0 :: b1 :: e0 :: e1 :: e2 :: e3 :: rest) =
      .ok (decodeIR (latchFields b0 b1 (wordOfBytes e0 e1 e2 e3)), rest) := by
  simp [decode, h]

end Sys2Proof
end

