-- ==== Sys2Proof/Laws/Memory.lean ====
section
/-! SUPPORT. Memory: a read after a write to the same byte gives it, every other byte stands, and every operation keeps
the canonical form and the range of the listed addresses. -/

namespace Sys2Proof.Machine

@[simp] theorem Memory.byte_nil (a : Nat) : Memory.byte [] a = unlistedByte := rfl

theorem Memory.byte_cons (c : Host.Cell) (m : Memory) (a : Nat) :
    Memory.byte (c :: m) a = if c.1 = a then c.2 else Memory.byte m a := rfl

/-- An address no cell lists reads as the unlisted byte. -/
theorem Memory.byte_unlisted {m : Memory} {a : Nat} (h : ∀ c ∈ m, c.1 ≠ a) : m.byte a = unlistedByte := by
  induction m with
  | nil => rfl
  | cons c rest ih =>
    rw [Memory.byte_cons, if_neg (h c (by simp)), ih fun d hd => h d (by simp [hd])]

theorem Memory.mem_eraseCell {m : Memory} {a : Nat} {c : Host.Cell} : c ∈ m.eraseCell a ↔ c ∈ m ∧ c.1 ≠ a := by
  simp [Memory.eraseCell]

theorem Memory.byte_eraseCell (m : Memory) (a b : Nat) :
    (m.eraseCell a).byte b = if b = a then unlistedByte else m.byte b := by
  split
  next h => exact Memory.byte_unlisted fun c hc => h ▸ (Memory.mem_eraseCell.1 hc).2
  next h =>
    induction m with
    | nil => rfl
    | cons c rest ih =>
      by_cases hc : c.1 = a
      · have : Memory.eraseCell (c :: rest) a = Memory.eraseCell rest a := by simp [Memory.eraseCell, hc]
        rw [this, ih, Memory.byte_cons, if_neg (by omega)]
      · have : Memory.eraseCell (c :: rest) a = c :: Memory.eraseCell rest a := by simp [Memory.eraseCell, hc]
        rw [this, Memory.byte_cons, Memory.byte_cons, ih]

theorem Memory.byte_insertCell {m : Memory} {a : Nat} (h : ∀ c ∈ m, c.1 ≠ a) (v : Byte) (b : Nat) :
    (m.insertCell a v).byte b = if b = a then v else m.byte b := by
  induction m with
  | nil => simp [Memory.insertCell, Memory.byte_cons, eq_comm]
  | cons c rest ih =>
    have hc : c.1 ≠ a := h c (by simp)
    simp only [Memory.insertCell]
    split
    · simp [Memory.byte_cons, eq_comm]
    · rw [Memory.byte_cons, ih fun d hd => h d (by simp [hd]), Memory.byte_cons]
      by_cases hb : b = a
      · simp [hb, hc]
      · simp [hb]

/-- The one law of a byte write. -/
theorem Memory.byte_setByte (m : Memory) (a : Nat) (v : Byte) (b : Nat) :
    (m.setByte a v).byte b = if b = a then v else m.byte b := by
  unfold Memory.setByte
  split
  next h => rw [Memory.byte_eraseCell, h]
  next h =>
    rw [Memory.byte_insertCell (fun c hc => (Memory.mem_eraseCell.1 hc).2), Memory.byte_eraseCell]
    split <;> rfl

@[simp] theorem Memory.byte_setByte_same (m : Memory) (a : Nat) (v : Byte) : (m.setByte a v).byte a = v := by
  simp [Memory.byte_setByte]

/-- A word write puts each byte of the word in its place and leaves every other byte (20_memory.md R33). -/
theorem Memory.byte_setWord (m : Memory) (a : Nat) (v : Word) (b : Nat) :
    (m.setWord a v).byte b =
      if b = a + 3 then byteOfWord v 3 else if b = a + 2 then byteOfWord v 2
      else if b = a + 1 then byteOfWord v 1 else if b = a then byteOfWord v 0 else m.byte b := by
  simp only [Memory.setWord, bytesOfWord, Memory.load, Memory.byte_setByte]

/-- A byte outside the four written reads as before. -/
theorem Memory.byte_setWord_frame (m : Memory) {a b : Nat} (v : Word) (h : b < a ∨ a + 4 ≤ b) :
    (m.setWord a v).byte b = m.byte b := by
  rw [Memory.byte_setWord, if_neg (by omega), if_neg (by omega), if_neg (by omega), if_neg (by omega)]

/-- The word just written is read back. -/
@[simp] theorem Memory.word_setWord_same (m : Memory) (a : Nat) (v : Word) : (m.setWord a v).word a = v := by
  simp [Memory.word, Memory.byte_setWord]

/-! ### The canonical form -/

theorem Memory.wf_nil : Memory.wf [] := by simp [Memory.wf]

theorem Memory.wf_eraseCell {m : Memory} (h : m.wf) (a : Nat) : (m.eraseCell a).wf :=
  ⟨h.1.filter _, fun c hc => h.2 c (Memory.mem_eraseCell.1 hc).1⟩

theorem Memory.mem_insertCell {m : Memory} {a : Nat} {v : Byte} {c : Host.Cell} :
    c ∈ m.insertCell a v ↔ c = (a, v) ∨ c ∈ m := by
  induction m with
  | nil => simp [Memory.insertCell]
  | cons d rest ih =>
    simp only [Memory.insertCell]
    split
    · simp
    · simp only [List.mem_cons, ih]; tauto

theorem Memory.wf_insertCell {m : Memory} (h : m.wf) {a : Nat} {v : Byte} (hv : v ≠ unlistedByte) (ha : ∀ c ∈ m, c.1 ≠ a) :
    (m.insertCell a v).wf := by
  refine ⟨?_, fun c hc => ?_⟩
  · obtain ⟨hs, -⟩ := h
    induction m with
    | nil => simp [Memory.insertCell]
    | cons d rest ih =>
      obtain ⟨hd, hrest⟩ := List.pairwise_cons.1 hs
      have hda : d.1 ≠ a := ha d (by simp)
      simp only [Memory.insertCell]
      split
      next hlt =>
        refine List.pairwise_cons.2 ⟨fun c hc => ?_, hs⟩
        rcases List.mem_cons.1 hc with rfl | hc
        · exact hlt
        · exact Nat.lt_trans hlt (hd c hc)
      next hge =>
        refine List.pairwise_cons.2 ⟨fun c hc => ?_, ih (fun c hc => ha c (by simp [hc])) hrest⟩
        rcases Memory.mem_insertCell.1 hc with rfl | hc
        · show d.1 < a
          omega
        · exact hd c hc
  · rcases Memory.mem_insertCell.1 hc with rfl | hc
    · exact hv
    · exact h.2 c hc

/-- A byte write keeps the canonical form. -/
theorem Memory.wf_setByte {m : Memory} (h : m.wf) (a : Nat) (v : Byte) : (m.setByte a v).wf := by
  unfold Memory.setByte
  split
  · exact Memory.wf_eraseCell h a
  next hv => exact Memory.wf_insertCell (Memory.wf_eraseCell h a) hv fun c hc => (Memory.mem_eraseCell.1 hc).2

/-- Loading bytes keeps the canonical form. -/
theorem Memory.wf_load {m : Memory} (h : m.wf) (a : Nat) (bs : List Byte) : (m.load a bs).wf := by
  induction bs generalizing m a with
  | nil => exact h
  | cons v rest ih => exact ih (Memory.wf_setByte h a v) (a + 1)

/-- A word write keeps the canonical form. -/
theorem Memory.wf_setWord {m : Memory} (h : m.wf) (a : Nat) (v : Word) : (m.setWord a v).wf :=
  Memory.wf_load h a _

/-- A cell after a byte write is an old one or the written one. -/
theorem Memory.mem_setByte {m : Memory} {a : Nat} {v : Byte} {c : Host.Cell} (h : c ∈ m.setByte a v) :
    c ∈ m ∨ c.1 = a := by
  unfold Memory.setByte at h
  split at h
  · exact .inl (Memory.mem_eraseCell.1 h).1
  · rcases Memory.mem_insertCell.1 h with rfl | h
    · exact .inr rfl
    · exact .inl (Memory.mem_eraseCell.1 h).1

/-- A word write lists no address beyond its own four. -/
theorem Memory.mem_setWord {m : Memory} {a : Nat} {v : Word} {c : Host.Cell} (h : c ∈ m.setWord a v) :
    c ∈ m ∨ a ≤ c.1 ∧ c.1 < a + 4 := by
  simp only [Memory.setWord, bytesOfWord, Memory.load] at h
  rcases Memory.mem_setByte h with h | h
  · rcases Memory.mem_setByte h with h | h
    · rcases Memory.mem_setByte h with h | h
      · rcases Memory.mem_setByte h with h | h
        · exact .inl h
        · exact .inr (by omega)
      · exact .inr (by omega)
    · exact .inr (by omega)
  · exact .inr (by omega)

end Sys2Proof.Machine
end

