-- ==== Sys2Proof/Laws/State.lean ====
section
/-! SUPPORT. What each update of State leaves in each field. -/

namespace Sys2Proof.Machine

variable (s : State)

@[simp] theorem State.setReg_regs (i : Nat) (v : Word) (h : i < 8) : (s.setReg i v h).regs = s.regs.set i v h := rfl
@[simp] theorem State.setReg_pc (i : Nat) (v : Word) (h : i < 8) : (s.setReg i v h).pc = s.pc := rfl
@[simp] theorem State.setReg_ir (i : Nat) (v : Word) (h : i < 8) : (s.setReg i v h).ir = s.ir := rfl
@[simp] theorem State.setReg_status (i : Nat) (v : Word) (h : i < 8) : (s.setReg i v h).status = s.status := rfl
@[simp] theorem State.setReg_mem (i : Nat) (v : Word) (h : i < 8) : (s.setReg i v h).mem = s.mem := rfl
@[simp] theorem State.setReg_params (i : Nat) (v : Word) (h : i < 8) : (s.setReg i v h).params = s.params := rfl
@[simp] theorem State.setReg_freeCount (i : Nat) (v : Word) (h : i < 8) : (s.setReg i v h).freeCount = s.freeCount := rfl

@[simp] theorem State.setPc_regs (v : Word) : (s.setPc v).regs = s.regs := rfl
@[simp] theorem State.setPc_pc (v : Word) : (s.setPc v).pc = v := rfl
@[simp] theorem State.setPc_ir (v : Word) : (s.setPc v).ir = s.ir := rfl
@[simp] theorem State.setPc_status (v : Word) : (s.setPc v).status = s.status := rfl
@[simp] theorem State.setPc_mem (v : Word) : (s.setPc v).mem = s.mem := rfl
@[simp] theorem State.setPc_params (v : Word) : (s.setPc v).params = s.params := rfl
@[simp] theorem State.setPc_freeCount (v : Word) : (s.setPc v).freeCount = s.freeCount := rfl

@[simp] theorem State.setIR_regs (v : IR) : (s.setIR v).regs = s.regs := rfl
@[simp] theorem State.setIR_pc (v : IR) : (s.setIR v).pc = s.pc := rfl
@[simp] theorem State.setIR_ir (v : IR) : (s.setIR v).ir = v := rfl
@[simp] theorem State.setIR_status (v : IR) : (s.setIR v).status = s.status := rfl
@[simp] theorem State.setIR_mem (v : IR) : (s.setIR v).mem = s.mem := rfl
@[simp] theorem State.setIR_params (v : IR) : (s.setIR v).params = s.params := rfl
@[simp] theorem State.setIR_freeCount (v : IR) : (s.setIR v).freeCount = s.freeCount := rfl

@[simp] theorem State.setStatus_regs (v : Status) : (s.setStatus v).regs = s.regs := rfl
@[simp] theorem State.setStatus_pc (v : Status) : (s.setStatus v).pc = s.pc := rfl
@[simp] theorem State.setStatus_ir (v : Status) : (s.setStatus v).ir = s.ir := rfl
@[simp] theorem State.setStatus_status (v : Status) : (s.setStatus v).status = v := rfl
@[simp] theorem State.setStatus_mem (v : Status) : (s.setStatus v).mem = s.mem := rfl
@[simp] theorem State.setStatus_params (v : Status) : (s.setStatus v).params = s.params := rfl
@[simp] theorem State.setStatus_freeCount (v : Status) : (s.setStatus v).freeCount = s.freeCount := rfl

@[simp] theorem State.setMem_regs (v : Memory) : (s.setMem v).regs = s.regs := rfl
@[simp] theorem State.setMem_pc (v : Memory) : (s.setMem v).pc = s.pc := rfl
@[simp] theorem State.setMem_ir (v : Memory) : (s.setMem v).ir = s.ir := rfl
@[simp] theorem State.setMem_status (v : Memory) : (s.setMem v).status = s.status := rfl
@[simp] theorem State.setMem_mem (v : Memory) : (s.setMem v).mem = v := rfl
@[simp] theorem State.setMem_params (v : Memory) : (s.setMem v).params = s.params := rfl
@[simp] theorem State.setMem_freeCount (v : Memory) : (s.setMem v).freeCount = s.freeCount := rfl

@[simp] theorem State.drawFree_regs : s.drawFree.regs = s.regs := rfl
@[simp] theorem State.drawFree_pc : s.drawFree.pc = s.pc := rfl
@[simp] theorem State.drawFree_ir : s.drawFree.ir = s.ir := rfl
@[simp] theorem State.drawFree_status : s.drawFree.status = s.status := rfl
@[simp] theorem State.drawFree_mem : s.drawFree.mem = s.mem := rfl
@[simp] theorem State.drawFree_params : s.drawFree.params = s.params := rfl
@[simp] theorem State.drawFree_freeCount : s.drawFree.freeCount = s.freeCount + 1 := rfl

@[simp] theorem State.signalHalt_regs : s.signalHalt.regs = s.regs := rfl
@[simp] theorem State.signalHalt_pc : s.signalHalt.pc = s.pc := rfl
@[simp] theorem State.signalHalt_ir : s.signalHalt.ir = s.ir := rfl
@[simp] theorem State.signalHalt_status : s.signalHalt.status = .halted := rfl
@[simp] theorem State.signalHalt_mem : s.signalHalt.mem = s.mem := rfl
@[simp] theorem State.signalHalt_params : s.signalHalt.params = s.params := rfl
@[simp] theorem State.signalHalt_freeCount : s.signalHalt.freeCount = s.freeCount := rfl

@[simp] theorem State.raise_regs (r : Fault) : (s.raise r).regs = s.regs := rfl
@[simp] theorem State.raise_pc (r : Fault) : (s.raise r).pc = s.pc := rfl
@[simp] theorem State.raise_ir (r : Fault) : (s.raise r).ir = s.ir := rfl
@[simp] theorem State.raise_status (r : Fault) : (s.raise r).status = .faulted r := rfl
@[simp] theorem State.raise_mem (r : Fault) : (s.raise r).mem = s.mem := rfl
@[simp] theorem State.raise_params (r : Fault) : (s.raise r).params = s.params := rfl
@[simp] theorem State.raise_freeCount (r : Fault) : (s.raise r).freeCount = s.freeCount := rfl

@[simp] theorem State.applyReset_regs (regs : Vector Word 8) (ir : IR) : (s.applyReset regs ir).regs = regs := rfl
@[simp] theorem State.applyReset_pc (regs : Vector Word 8) (ir : IR) : (s.applyReset regs ir).pc = s.params.resetPc := rfl
@[simp] theorem State.applyReset_ir (regs : Vector Word 8) (ir : IR) : (s.applyReset regs ir).ir = ir := rfl
@[simp] theorem State.applyReset_status (regs : Vector Word 8) (ir : IR) : (s.applyReset regs ir).status = .running := rfl
@[simp] theorem State.applyReset_mem (regs : Vector Word 8) (ir : IR) : (s.applyReset regs ir).mem = s.mem := rfl
@[simp] theorem State.applyReset_params (regs : Vector Word 8) (ir : IR) : (s.applyReset regs ir).params = s.params := rfl
@[simp] theorem State.applyReset_freeCount (regs : Vector Word 8) (ir : IR) : (s.applyReset regs ir).freeCount = s.freeCount := rfl

@[simp] theorem State.powerOn_regs (p : Params) (regs : Vector Word 8) (ir : IR) (mem : Memory) :
    (State.powerOn p regs ir mem).regs = regs := rfl
@[simp] theorem State.powerOn_pc (p : Params) (regs : Vector Word 8) (ir : IR) (mem : Memory) :
    (State.powerOn p regs ir mem).pc = p.resetPc := rfl
@[simp] theorem State.powerOn_ir (p : Params) (regs : Vector Word 8) (ir : IR) (mem : Memory) :
    (State.powerOn p regs ir mem).ir = ir := rfl
@[simp] theorem State.powerOn_status (p : Params) (regs : Vector Word 8) (ir : IR) (mem : Memory) :
    (State.powerOn p regs ir mem).status = .running := rfl
@[simp] theorem State.powerOn_mem (p : Params) (regs : Vector Word 8) (ir : IR) (mem : Memory) :
    (State.powerOn p regs ir mem).mem = mem := rfl
@[simp] theorem State.powerOn_params (p : Params) (regs : Vector Word 8) (ir : IR) (mem : Memory) :
    (State.powerOn p regs ir mem).params = p := rfl
@[simp] theorem State.powerOn_freeCount (p : Params) (regs : Vector Word 8) (ir : IR) (mem : Memory) :
    (State.powerOn p regs ir mem).freeCount = 0 := rfl

@[simp] theorem fetchFailed_regs : (fetchFailed s).regs = s.regs := rfl
@[simp] theorem fetchFailed_pc : (fetchFailed s).pc = s.pc := rfl
@[simp] theorem fetchFailed_ir : (fetchFailed s).ir = latchesOfBits (Config.freeLatches s.freeCount) := rfl
@[simp] theorem fetchFailed_status : (fetchFailed s).status = s.status := rfl
@[simp] theorem fetchFailed_mem : (fetchFailed s).mem = s.mem := rfl
@[simp] theorem fetchFailed_params : (fetchFailed s).params = s.params := rfl
@[simp] theorem fetchFailed_freeCount : (fetchFailed s).freeCount = s.freeCount + 1 := rfl

/-- Two states with the same fields are the same state. -/
theorem State.ext_fields {s t : State} (hr : s.regs = t.regs) (hp : s.pc = t.pc) (hi : s.ir = t.ir)
    (hs : s.status = t.status) (hm : s.mem = t.mem) (hq : s.params = t.params) (hf : s.freeCount = t.freeCount) :
    s = t := by
  cases s; cases t; simp_all

end Sys2Proof.Machine
end

