-- ==== Sys2Proof/Laws/Ops.lean ====
section
/-! SUPPORT. For each shared operation, one lemma that says all it can do; callers cite it and do not unfold it. -/

namespace Sys2Proof.Machine

/-- A sequence answers a value when its first part does and its second part does after it. -/
theorem bind_eq_ok {ε α β : Type} {x : Except ε α} {f : α → Except ε β} {r : β} :
    (x >>= f) = .ok r ↔ ∃ a, x = .ok a ∧ f a = .ok r := by
  cases x <;> simp [bind, Except.bind]

/-- A sequence fails in its first part, or in its second after it. -/
theorem bind_eq_error {ε α β : Type} {x : Except ε α} {f : α → Except ε β} {e : ε} :
    (x >>= f) = .error e ↔ x = .error e ∨ ∃ a, x = .ok a ∧ f a = .error e := by
  cases x <;> simp [bind, Except.bind]

@[simp] theorem ok_bind {ε α β : Type} (a : α) (f : α → Except ε β) : ((.ok a : Except ε α) >>= f) = f a := rfl

@[simp] theorem error_bind {ε α β : Type} (e : ε) (f : α → Except ε β) : ((.error e : Except ε α) >>= f) = .error e := rfl

section RegisterFile
variable {f : RegField} {s t : State} {v : Word} {e : Stop}

/-- A read of a field 0 to 7 (10_state.md R13). -/
theorem rfGet_ok (h : f.toNat < 8) : rfGet f s = .ok (s.regs[f.toNat]'h) := by simp [rfGet, h]

/-- A read of a field 8 to 15 (10_state.md R13). -/
theorem rfGet_error (h : 8 ≤ f.toNat) : rfGet f s = .error (.raise .registerRangeError) := by
  simp [rfGet, Nat.not_lt.2 h]

/-- All a register read can do. -/
theorem rfGet_cases (f : RegField) (s : State) :
    (∃ h : f.toNat < 8, rfGet f s = .ok (s.regs[f.toNat]'h)) ∨
      8 ≤ f.toNat ∧ rfGet f s = .error (.raise .registerRangeError) := by
  by_cases h : f.toNat < 8
  · exact .inl ⟨h, rfGet_ok h⟩
  · exact .inr ⟨Nat.not_lt.1 h, rfGet_error (Nat.not_lt.1 h)⟩

theorem rfGet_eq_ok : rfGet f s = .ok v ↔ ∃ h : f.toNat < 8, (s.regs[f.toNat]'h) = v := by
  unfold rfGet; split <;> simp_all

theorem rfGet_eq_error : rfGet f s = .error e ↔ 8 ≤ f.toNat ∧ e = .raise .registerRangeError := by
  unfold rfGet; split <;> simp_all [eq_comm]

/-- A write of a field 0 to 7 (10_state.md R13). -/
theorem rfSet_ok (h : f.toNat < 8) : rfSet f v s = .ok (s.setReg f.toNat v h) := by simp [rfSet, h]

/-- A write of a field 8 to 15 writes nothing (10_state.md R13). -/
theorem rfSet_error (h : 8 ≤ f.toNat) : rfSet f v s = .error (.raise .registerRangeError) := by
  simp [rfSet, Nat.not_lt.2 h]

theorem rfSet_eq_ok : rfSet f v s = .ok t ↔ ∃ h : f.toNat < 8, s.setReg f.toNat v h = t := by
  unfold rfSet; split <;> simp_all

theorem rfSet_eq_error : rfSet f v s = .error e ↔ 8 ≤ f.toNat ∧ e = .raise .registerRangeError := by
  unfold rfSet; split <;> simp_all [eq_comm]

end RegisterFile

section MemoryPort
variable {k : AccessKind} {a v : Word} {s t : State} {e : Stop}

/-- The validity predicate, in the terms of 20_memory.md R32. -/
theorem valid_iff (p : Params) (a : Word) (n : Nat) (k : AccessKind) :
    valid p a n k = true ↔ a.toNat + n ≤ p.memSize ∧ alignOk p a k = true := by
  simp [valid, inRange]

theorem mpReadHeader_eq_ok {h : Byte × Byte} :
    mpReadHeader a s = .ok h ↔ valid s.params a 2 .hdr = true ∧ h = (s.mem.byte a.toNat, s.mem.byte (a.toNat + 1)) := by
  by_cases hv : valid s.params a 2 .hdr = true <;> simp [mpReadHeader, hv, @eq_comm _ h]

theorem mpReadHeader_eq_error :
    mpReadHeader a s = .error e ↔ valid s.params a 2 .hdr = false ∧ e = .raise .addressError := by
  by_cases hv : valid s.params a 2 .hdr = true <;> simp [mpReadHeader, hv, @eq_comm _ e]

theorem mpReadWord_eq_ok :
    mpReadWord k a s = .ok v ↔ valid s.params a 4 k = true ∧ s.mem.word a.toNat = v := by
  by_cases hv : valid s.params a 4 k = true <;> simp [mpReadWord, hv]

theorem mpReadWord_eq_error :
    mpReadWord k a s = .error e ↔ valid s.params a 4 k = false ∧ e = .raise .addressError := by
  by_cases hv : valid s.params a 4 k = true <;> simp [mpReadWord, hv, @eq_comm _ e]

theorem mpWriteWord_eq_ok :
    mpWriteWord a v s = .ok t ↔
      valid s.params a 4 .data = true ∧ s.setMem (s.mem.setWord a.toNat v) = t := by
  by_cases hv : valid s.params a 4 .data = true <;> simp [mpWriteWord, hv]

theorem mpWriteWord_eq_error :
    mpWriteWord a v s = .error e ↔ valid s.params a 4 .data = false ∧ e = .raise .addressError := by
  by_cases hv : valid s.params a 4 .data = true <;> simp [mpWriteWord, hv, @eq_comm _ e]

end MemoryPort

section Execute
variable {body : State → Except Stop State} {s t : State}

/-- An execute phase whose body succeeds (41_decode_dispatch.md R80). -/
theorem execute_ok (hr : s.status = .running) (h : body s = .ok t) : execute body s = .next t := by
  simp [execute, hr, h]

/-- An execute phase whose body raises takes the fault in the state it began with (60_exceptions.md R134). -/
theorem execute_raise {r : Fault} (hr : s.status = .running) (h : body s = .error (.raise r)) :
    execute body s = .next (s.raise r) := by
  simp [execute, hr, h, stopCycle]

/-- All an execute phase can do when it answers a next state. -/
theorem execute_next_cases (h : execute body s = .next t) :
    s.status = .running ∧ (body s = .ok t ∨ ∃ r, body s = .error (.raise r) ∧ t = s.raise r) := by
  unfold execute at h
  split at h
  next hr =>
    refine ⟨hr, ?_⟩
    split at h
    next t' hb => exact .inl (by cases h; exact hb)
    next e hb =>
      cases e with
      | raise r => exact .inr ⟨r, hb, by cases h; rfl⟩
      | refuse r => cases h
  · cases h
  · cases h

/-- An execute phase is refused only by its body, or because the run is over (60_exceptions.md R139). -/
theorem execute_refused_cases {q : Refusal} (h : execute body s = .refused q) :
    s.status = .running ∧ body s = .error (.refuse q) ∨ s.status = .halted ∧ q = .cycleAfterHalt ∨
      ∃ r, s.status = .faulted r ∧ q = .cycleAfterFault r := by
  unfold execute at h
  split at h
  next hr =>
    split at h
    · cases h
    next e hb =>
      cases e with
      | raise r => cases h
      | refuse r => cases h; exact .inl ⟨hr, hb⟩
  next hs => cases h; exact .inr (.inl ⟨hs, rfl⟩)
  next r hs => cases h; exact .inr (.inr ⟨r, hs, rfl⟩)

end Execute

section Operands
variable {s : State} {a : Word} {e : Stop}

theorem eaOffset_eq_ok {base : RegField} {offset : Nibble} :
    eaOffset base offset s = .ok a ↔
      ∃ h : base.toNat < 8, offsetAddress (s.regs[base.toNat]'h) offset = a := by
  simp only [eaOffset, bind_eq_ok, rfGet_eq_ok, pure, Except.pure, Except.ok.injEq]
  constructor
  · rintro ⟨b, ⟨h, rfl⟩, rfl⟩; exact ⟨h, rfl⟩
  · rintro ⟨h, rfl⟩; exact ⟨_, ⟨h, rfl⟩, rfl⟩

theorem eaOffset_eq_error {base : RegField} {offset : Nibble} :
    eaOffset base offset s = .error e ↔ 8 ≤ base.toNat ∧ e = .raise .registerRangeError := by
  simp [eaOffset, bind_eq_error, rfGet_eq_error, pure, Except.pure]

theorem eaIndexed_eq_ok {base index : RegField} :
    eaIndexed base index s = .ok a ↔
      ∃ (hb : base.toNat < 8) (hi : index.toNat < 8),
        indexedAddress (s.regs[base.toNat]'hb) (s.regs[index.toNat]'hi) = a := by
  simp only [eaIndexed, bind_eq_ok, rfGet_eq_ok, pure, Except.pure, Except.ok.injEq]
  constructor
  · rintro ⟨b, ⟨hb, rfl⟩, i, ⟨hi, rfl⟩, rfl⟩; exact ⟨hb, hi, rfl⟩
  · rintro ⟨hb, hi, rfl⟩; exact ⟨_, ⟨hb, rfl⟩, _, ⟨hi, rfl⟩, rfl⟩

theorem eaIndexed_eq_error {base index : RegField} :
    eaIndexed base index s = .error e ↔
      (8 ≤ base.toNat ∨ 8 ≤ index.toNat) ∧ e = .raise .registerRangeError := by
  simp only [eaIndexed, bind_eq_error, rfGet_eq_error, pure, Except.pure, reduceCtorEq, and_false, exists_false, or_false]
  constructor
  · rintro (⟨h, rfl⟩ | ⟨b, -, h, rfl⟩)
    · exact ⟨.inl h, rfl⟩
    · exact ⟨.inr h, rfl⟩
  · rintro ⟨h, rfl⟩
    by_cases hb : 8 ≤ base.toNat
    · exact .inl ⟨hb, rfl⟩
    · exact .inr ⟨_, rfGet_ok (Nat.not_le.1 hb), h.resolve_left hb, rfl⟩

end Operands

section Bodies
variable {ea : State → Except Stop Word} {s t : State}

/-- A load that completes writes one register and nothing else. -/
theorem loadWord_eq_ok {rd : RegField} :
    loadWord ea rd s = .ok t ↔
      ∃ a, ea s = .ok a ∧ valid s.params a 4 .data = true ∧
        ∃ h : rd.toNat < 8, s.setReg rd.toNat (s.mem.word a.toNat) h = t := by
  simp only [loadWord, bind_eq_ok, mpReadWord_eq_ok, rfSet_eq_ok]
  constructor
  · rintro ⟨a, ha, v, ⟨hv, rfl⟩, h, rfl⟩; exact ⟨a, ha, hv, h, rfl⟩
  · rintro ⟨a, ha, hv, h, rfl⟩; exact ⟨a, ha, _, ⟨hv, rfl⟩, h, rfl⟩

/-- A store that completes writes one word of memory and nothing else. -/
theorem storeWord_eq_ok {rs : RegField} :
    storeWord ea rs s = .ok t ↔
      ∃ a, ea s = .ok a ∧ valid s.params a 4 .data = true ∧
        ∃ h : rs.toNat < 8, s.setMem (s.mem.setWord a.toNat (s.regs[rs.toNat]'h)) = t := by
  simp only [storeWord, bind_eq_ok, mpWriteWord_eq_ok, rfGet_eq_ok]
  constructor
  · rintro ⟨a, ha, v, ⟨h, rfl⟩, hv, rfl⟩; exact ⟨a, ha, hv, h, rfl⟩
  · rintro ⟨a, ha, hv, h, rfl⟩; exact ⟨a, ha, _, ⟨h, rfl⟩, hv, rfl⟩

theorem aluBinary_eq_ok {f : Word → Word → Word} {rs rd : RegField} :
    aluBinary f rs rd s = .ok t ↔
      ∃ (hs : rs.toNat < 8) (hd : rd.toNat < 8),
        s.setReg rd.toNat (f (s.regs[rs.toNat]'hs) (s.regs[rd.toNat]'hd)) hd = t := by
  simp only [aluBinary, bind_eq_ok, rfGet_eq_ok, rfSet_eq_ok]
  constructor
  · rintro ⟨a, ⟨hs, rfl⟩, b, ⟨hd, rfl⟩, _, rfl⟩; exact ⟨hs, hd, rfl⟩
  · rintro ⟨hs, hd, rfl⟩; exact ⟨_, ⟨hs, rfl⟩, _, ⟨hd, rfl⟩, hd, rfl⟩

theorem aluUnary_eq_ok {f : Word → Word} {rd : RegField} :
    aluUnary f rd s = .ok t ↔ ∃ hd : rd.toNat < 8, s.setReg rd.toNat (f (s.regs[rd.toNat]'hd)) hd = t := by
  simp only [aluUnary, bind_eq_ok, rfGet_eq_ok, rfSet_eq_ok]
  constructor
  · rintro ⟨b, ⟨hd, rfl⟩, _, rfl⟩; exact ⟨hd, rfl⟩
  · rintro ⟨hd, rfl⟩; exact ⟨_, ⟨hd, rfl⟩, hd, rfl⟩

theorem aluMove_eq_ok {rs rd : RegField} :
    aluMove rs rd s = .ok t ↔
      ∃ (hs : rs.toNat < 8) (hd : rd.toNat < 8), s.setReg rd.toNat (s.regs[rs.toNat]'hs) hd = t := by
  simp only [aluMove, bind_eq_ok, rfGet_eq_ok, rfSet_eq_ok]
  constructor
  · rintro ⟨v, ⟨hs, rfl⟩, hd, rfl⟩; exact ⟨hs, hd, rfl⟩
  · rintro ⟨hs, hd, rfl⟩; exact ⟨_, ⟨hs, rfl⟩, hd, rfl⟩

theorem shiftRegister_eq_ok {rd : RegField} {amount : BitVec 8} :
    shiftRegister rd amount s = .ok t ↔
      ∃ (hd : rd.toNat < 8) (r : Word),
        shiftResult s.params.shiftRule amount (s.regs[rd.toNat]'hd) = some r ∧ s.setReg rd.toNat r hd = t := by
  simp only [shiftRegister, bind_eq_ok, rfGet_eq_ok]
  constructor
  · rintro ⟨v, ⟨hd, rfl⟩, h⟩
    split at h
    next r hr => exact ⟨hd, r, hr, (rfSet_eq_ok.1 h).2⟩
    · cases h
  · rintro ⟨hd, r, hr, rfl⟩
    exact ⟨_, ⟨hd, rfl⟩, by simp [hr, rfSet_ok hd]⟩

/-- A shift has a result unless SHIFT_RULE is refuse (44_shift.md R118). -/
theorem shiftResult_isSome {rule : ShiftRule} (h : rule ≠ .refuse) (amount : BitVec 8) (v : Word) :
    ∃ r, shiftResult rule amount v = some r := by
  cases rule <;> simp_all [shiftResult, shiftLeftBy, shiftRightBy] <;> split <;> split <;> simp

end Bodies

end Sys2Proof.Machine
end

