-- ==== Sys2Proof/Laws/Exec.lean ====
section
/-! SUPPORT. The execute phase of each instruction as its shared operation, and what any execute phase can do. -/

namespace Sys2Proof.Machine

variable (s : State)

theorem exec_ldImm (rd : RegField) (pad : Byte) (value : Word) :
    exec (.ldImm rd pad value) s = execute (rfSet rd value) s := rfl

theorem exec_ldOff (offset : Nibble) (base : RegField) (rd : RegField) :
    exec (.ldOff offset base rd) s = execute (loadWord (eaOffset base offset) rd) s := rfl

theorem exec_ldIdx (base : RegField) (index : RegField) (rd : RegField) :
    exec (.ldIdx base index rd) s = execute (loadWord (eaIndexed base index) rd) s := rfl

theorem exec_stOff (rs : RegField) (offset : Nibble) (base : RegField) :
    exec (.stOff rs offset base) s = execute (storeWord (eaOffset base offset) rs) s := rfl

theorem exec_stIdx (rs : RegField) (base : RegField) (index : RegField) :
    exec (.stIdx rs base index) s = execute (storeWord (eaIndexed base index) rs) s := rfl

theorem exec_mov (rs : RegField) (rd : RegField) :
    exec (.mov rs rd) s = execute (aluMove rs rd) s := rfl

theorem exec_add (rs : RegField) (rd : RegField) :
    exec (.add rs rd) s = execute (aluBinary (fun a b => a + b) rs rd) s := rfl

theorem exec_and (rs : RegField) (rd : RegField) :
    exec (.and rs rd) s = execute (aluBinary (fun a b => a &&& b) rs rd) s := rfl

theorem exec_inc (pad : Nibble) (rd : RegField) :
    exec (.inc pad rd) s = execute (aluUnary (fun b => b + 1#32) rd) s := rfl

theorem exec_inca (pad : Nibble) (rd : RegField) :
    exec (.inca pad rd) s = execute (aluUnary (fun b => b + 4#32) rd) s := rfl

theorem exec_dec (pad : Nibble) (rd : RegField) :
    exec (.dec pad rd) s = execute (aluUnary (fun b => b - 1#32) rd) s := rfl

theorem exec_deca (pad : Nibble) (rd : RegField) :
    exec (.deca pad rd) s = execute (aluUnary (fun b => b - 4#32) rd) s := rfl

theorem exec_not (pad : Nibble) (rd : RegField) :
    exec (.not pad rd) s = execute (aluUnary (fun b => ~~~b) rd) s := rfl

theorem exec_shift (rd : RegField) (amount : BitVec 8) :
    exec (.shift rd amount) s = execute (shiftRegister rd amount) s := rfl

theorem exec_halt (pad : Byte) :
    exec (.halt pad) s = execute (fun s => .ok s.signalHalt) s := rfl

theorem exec_nop (pad : Byte) :
    exec (.nop pad) s = execute (fun s => .ok s) s := rfl

theorem exec_nopU (selector : Nibble) (pad : Byte) :
    exec (.nopU selector pad) s = execute (fun s => .ok s) s := rfl

theorem exec_reserved5 (op0 : Nibble) (pad : Byte) :
    exec (.reserved5 op0 pad) s = execute raiseDecodeError s := rfl

theorem exec_reserved8 (op0 : Nibble) (pad : Byte) :
    exec (.reserved8 op0 pad) s = execute raiseDecodeError s := rfl

theorem exec_reserved9 (op0 : Nibble) (pad : Byte) :
    exec (.reserved9 op0 pad) s = execute raiseDecodeError s := rfl

theorem exec_reservedA (op0 : Nibble) (pad : Byte) :
    exec (.reservedA op0 pad) s = execute raiseDecodeError s := rfl

theorem exec_reservedC (op0 : Nibble) (pad : Byte) :
    exec (.reservedC op0 pad) s = execute raiseDecodeError s := rfl

theorem exec_reservedD (op0 : Nibble) (pad : Byte) :
    exec (.reservedD op0 pad) s = execute raiseDecodeError s := rfl

theorem exec_reservedE (op0 : Nibble) (pad : Byte) :
    exec (.reservedE op0 pad) s = execute raiseDecodeError s := rfl

theorem exec_reservedB (op0 : Nibble) (pad : Byte) (ext : Word) :
    exec (.reservedB op0 pad ext) s = execute raiseDecodeError s := rfl

theorem exec_reservedAlu (selector : Nibble) (pad : Byte) :
    exec (.reservedAlu selector pad) s = execute raiseDecodeError s := rfl

variable {s}

/-- The validity of a data access in the terms of 20_memory.md R32. -/
theorem valid_data_iff (p : Params) (a : Word) : valid p a 4 .data = true ↔ validData p a := by
  rw [valid_iff]; cases h : p.dataAlign4 <;> simp [alignOk, validData, h]

/-- The validity of a header read in the terms of 20_memory.md R32. -/
theorem valid_hdr_iff (p : Params) (a : Word) : valid p a 2 .hdr = true ↔ validHeader p a := by
  rw [valid_iff]; cases h : p.fetchAlign2 <;> simp [alignOk, validHeader, h]

/-- The validity of an extension read in the terms of 20_memory.md R32. -/
theorem valid_ext_iff (p : Params) (a : Word) : valid p a 4 .ext = true ↔ validExtension p a := by
  rw [valid_iff]; simp [alignOk, validExtension]

/-- An instruction's execute phase answers a next state only from Running. -/
theorem exec_next_running {i : Instr} {t : State} (h : exec i s = .next t) : s.status = .running := by
  cases i <;> first
    | exact (execute_next_cases h).1
    | (unfold exec at h; exact (execute_next_cases h).1)

/-- All any execute phase can do when it answers a next state: take a fault, write the instruction's one register, write
the one word it stores, or write neither, halting or not. -/
theorem exec_next_cases {i : Instr} {t : State} (h : exec i s = .next t) :
    (∃ r, t = s.raise r) ∨
    (∃ (f : RegField) (hf : f.toNat < 8) (v : Word), i.written = some f ∧ t = s.setReg f.toNat v hf) ∨
    (∃ (a : Word) (f : RegField) (hf : f.toNat < 8), i.storeAddress s = some (a, f) ∧ validData s.params a ∧
      t = s.setMem (s.mem.setWord a.toNat (s.regs[f.toNat]'hf))) ∨
    i.written = none ∧ (t = s ∨ (∃ pad, i = .halt pad) ∧ t = s.signalHalt) := by
  cases i
  case ldImm =>
    rw [exec_ldImm] at h
    obtain ⟨-, hb | ⟨r, -, rfl⟩⟩ := execute_next_cases h
    · obtain ⟨hd, rfl⟩ := rfSet_eq_ok.1 hb; exact .inr (.inl ⟨_, hd, _, rfl, rfl⟩)
    · exact .inl ⟨r, rfl⟩
  case ldOff =>
    rw [exec_ldOff] at h
    obtain ⟨-, hb | ⟨r, -, rfl⟩⟩ := execute_next_cases h
    · obtain ⟨a, -, -, hd, rfl⟩ := loadWord_eq_ok.1 hb; exact .inr (.inl ⟨_, hd, _, rfl, rfl⟩)
    · exact .inl ⟨r, rfl⟩
  case ldIdx =>
    rw [exec_ldIdx] at h
    obtain ⟨-, hb | ⟨r, -, rfl⟩⟩ := execute_next_cases h
    · obtain ⟨a, -, -, hd, rfl⟩ := loadWord_eq_ok.1 hb; exact .inr (.inl ⟨_, hd, _, rfl, rfl⟩)
    · exact .inl ⟨r, rfl⟩
  case stOff =>
    rw [exec_stOff] at h
    obtain ⟨-, hb | ⟨r, -, rfl⟩⟩ := execute_next_cases h
    · obtain ⟨a, ha, hv, hs, rfl⟩ := storeWord_eq_ok.1 hb
      exact .inr (.inr (.inl ⟨a, _, hs, by simp [Instr.storeAddress, ha, Except.toOption], (valid_data_iff _ _).1 hv, rfl⟩))
    · exact .inl ⟨r, rfl⟩
  case stIdx =>
    rw [exec_stIdx] at h
    obtain ⟨-, hb | ⟨r, -, rfl⟩⟩ := execute_next_cases h
    · obtain ⟨a, ha, hv, hs, rfl⟩ := storeWord_eq_ok.1 hb
      exact .inr (.inr (.inl ⟨a, _, hs, by simp [Instr.storeAddress, ha, Except.toOption], (valid_data_iff _ _).1 hv, rfl⟩))
    · exact .inl ⟨r, rfl⟩
  case mov =>
    rw [exec_mov] at h
    obtain ⟨-, hb | ⟨r, -, rfl⟩⟩ := execute_next_cases h
    · obtain ⟨-, hd, rfl⟩ := aluMove_eq_ok.1 hb; exact .inr (.inl ⟨_, hd, _, rfl, rfl⟩)
    · exact .inl ⟨r, rfl⟩
  case add =>
    rw [exec_add] at h
    obtain ⟨-, hb | ⟨r, -, rfl⟩⟩ := execute_next_cases h
    · obtain ⟨-, hd, rfl⟩ := aluBinary_eq_ok.1 hb; exact .inr (.inl ⟨_, hd, _, rfl, rfl⟩)
    · exact .inl ⟨r, rfl⟩
  case and =>
    rw [exec_and] at h
    obtain ⟨-, hb | ⟨r, -, rfl⟩⟩ := execute_next_cases h
    · obtain ⟨-, hd, rfl⟩ := aluBinary_eq_ok.1 hb; exact .inr (.inl ⟨_, hd, _, rfl, rfl⟩)
    · exact .inl ⟨r, rfl⟩
  case inc =>
    rw [exec_inc] at h
    obtain ⟨-, hb | ⟨r, -, rfl⟩⟩ := execute_next_cases h
    · obtain ⟨hd, rfl⟩ := aluUnary_eq_ok.1 hb; exact .inr (.inl ⟨_, hd, _, rfl, rfl⟩)
    · exact .inl ⟨r, rfl⟩
  case inca =>
    rw [exec_inca] at h
    obtain ⟨-, hb | ⟨r, -, rfl⟩⟩ := execute_next_cases h
    · obtain ⟨hd, rfl⟩ := aluUnary_eq_ok.1 hb; exact .inr (.inl ⟨_, hd, _, rfl, rfl⟩)
    · exact .inl ⟨r, rfl⟩
  case dec =>
    rw [exec_dec] at h
    obtain ⟨-, hb | ⟨r, -, rfl⟩⟩ := execute_next_cases h
    · obtain ⟨hd, rfl⟩ := aluUnary_eq_ok.1 hb; exact .inr (.inl ⟨_, hd, _, rfl, rfl⟩)
    · exact .inl ⟨r, rfl⟩
  case deca =>
    rw [exec_deca] at h
    obtain ⟨-, hb | ⟨r, -, rfl⟩⟩ := execute_next_cases h
    · obtain ⟨hd, rfl⟩ := aluUnary_eq_ok.1 hb; exact .inr (.inl ⟨_, hd, _, rfl, rfl⟩)
    · exact .inl ⟨r, rfl⟩
  case not =>
    rw [exec_not] at h
    obtain ⟨-, hb | ⟨r, -, rfl⟩⟩ := execute_next_cases h
    · obtain ⟨hd, rfl⟩ := aluUnary_eq_ok.1 hb; exact .inr (.inl ⟨_, hd, _, rfl, rfl⟩)
    · exact .inl ⟨r, rfl⟩
  case shift =>
    rw [exec_shift] at h
    obtain ⟨-, hb | ⟨r, -, rfl⟩⟩ := execute_next_cases h
    · obtain ⟨hd, _, -, rfl⟩ := shiftRegister_eq_ok.1 hb; exact .inr (.inl ⟨_, hd, _, rfl, rfl⟩)
    · exact .inl ⟨r, rfl⟩
  case halt =>
    rw [exec_halt] at h
    obtain ⟨-, hb | ⟨r, -, rfl⟩⟩ := execute_next_cases h
    · cases hb; exact .inr (.inr (.inr ⟨rfl, .inr ⟨⟨_, rfl⟩, rfl⟩⟩))
    · exact .inl ⟨r, rfl⟩
  case nop =>
    rw [exec_nop] at h
    obtain ⟨-, hb | ⟨r, -, rfl⟩⟩ := execute_next_cases h
    · cases hb; exact .inr (.inr (.inr ⟨rfl, .inl rfl⟩))
    · exact .inl ⟨r, rfl⟩
  case nopU =>
    rw [exec_nopU] at h
    obtain ⟨-, hb | ⟨r, -, rfl⟩⟩ := execute_next_cases h
    · cases hb; exact .inr (.inr (.inr ⟨rfl, .inl rfl⟩))
    · exact .inl ⟨r, rfl⟩
  case reserved5 =>
    rw [exec_reserved5] at h
    obtain ⟨-, hb | ⟨r, -, rfl⟩⟩ := execute_next_cases h
    · cases hb
    · exact .inl ⟨r, rfl⟩
  case reserved8 =>
    rw [exec_reserved8] at h
    obtain ⟨-, hb | ⟨r, -, rfl⟩⟩ := execute_next_cases h
    · cases hb
    · exact .inl ⟨r, rfl⟩
  case reserved9 =>
    rw [exec_reserved9] at h
    obtain ⟨-, hb | ⟨r, -, rfl⟩⟩ := execute_next_cases h
    · cases hb
    · exact .inl ⟨r, rfl⟩
  case reservedA =>
    rw [exec_reservedA] at h
    obtain ⟨-, hb | ⟨r, -, rfl⟩⟩ := execute_next_cases h
    · cases hb
    · exact .inl ⟨r, rfl⟩
  case reservedC =>
    rw [exec_reservedC] at h
    obtain ⟨-, hb | ⟨r, -, rfl⟩⟩ := execute_next_cases h
    · cases hb
    · exact .inl ⟨r, rfl⟩
  case reservedD =>
    rw [exec_reservedD] at h
    obtain ⟨-, hb | ⟨r, -, rfl⟩⟩ := execute_next_cases h
    · cases hb
    · exact .inl ⟨r, rfl⟩
  case reservedE =>
    rw [exec_reservedE] at h
    obtain ⟨-, hb | ⟨r, -, rfl⟩⟩ := execute_next_cases h
    · cases hb
    · exact .inl ⟨r, rfl⟩
  case reservedB =>
    rw [exec_reservedB] at h
    obtain ⟨-, hb | ⟨r, -, rfl⟩⟩ := execute_next_cases h
    · cases hb
    · exact .inl ⟨r, rfl⟩
  case reservedAlu =>
    rw [exec_reservedAlu] at h
    obtain ⟨-, hb | ⟨r, -, rfl⟩⟩ := execute_next_cases h
    · cases hb
    · exact .inl ⟨r, rfl⟩

/-- All the causes of a fault of the execute phase (60_exceptions.md R132, R135, R137): a reserved encoding, a register
field above 7, or an invalid address of a load or store. -/
theorem exec_fault_cases {i : Instr} {t : State} {r : Fault} (h : exec i s = .next t) (ht : t.status = .faulted r) :
   (r = .decodeError ∧ ∀ u, exec i u = execute raiseDecodeError u) ∨ (r = .registerRangeError ∧ ∃ f ∈ i.usedFields, 8 ≤ f.toNat) ∨
   (r = .addressError ∧ ∃ a, ¬ validData s.params a ∧ (i.loadAddress s = some a ∨ ∃ f, i.storeAddress s = some (a, f))) := by
  have hr := exec_next_running h
  have nv : ∀ a, valid s.params a 4 .data = false → ¬ validData s.params a := fun a h hv => by
    rw [(valid_data_iff _ _).2 hv] at h; cases h
  cases i
  case reserved5 | reserved8 | reserved9 | reservedA | reservedB | reservedC | reservedD | reservedE | reservedAlu =>
    left; obtain ⟨-, hb | ⟨r, hb, rfl⟩⟩ := execute_next_cases (body := raiseDecodeError) h
    · cases hb
    · cases hb; simp at ht; exact ⟨ht.symm, fun _ => rfl⟩
  case halt => rw [exec_halt, execute_ok (body := fun s => .ok s.signalHalt) hr rfl] at h; cases h; simp at ht
  case nop => rw [exec_nop, execute_ok hr rfl] at h; cases h; simp [hr] at ht
  case nopU => rw [exec_nopU, execute_ok hr rfl] at h; cases h; simp [hr] at ht
  case ldImm =>
    rw [exec_ldImm] at h
    obtain ⟨-, hb | ⟨r, hb, rfl⟩⟩ := execute_next_cases h
    · obtain ⟨_, rfl⟩ := rfSet_eq_ok.1 hb; simp [hr] at ht
    · rw [rfSet_eq_error] at hb; simp at ht; subst ht; simp at hb; simp [Instr.usedFields, Instr.readFields, Instr.written, hb]
  case ldOff =>
    rw [exec_ldOff] at h
    obtain ⟨-, hb | ⟨r, hb, rfl⟩⟩ := execute_next_cases h
    · obtain ⟨_, _, _, _, rfl⟩ := loadWord_eq_ok.1 hb; simp [hr] at ht
    · simp [loadWord, bind_eq_error, eaOffset_eq_error, mpReadWord_eq_error, rfSet_eq_error] at hb; simp at ht; subst ht
      right
      rcases hb with ⟨h, hq⟩ | ⟨a, ha, ⟨hv, hq⟩ | ⟨_, h, hq⟩⟩
      · left; simp [Instr.usedFields, Instr.readFields, Instr.written, h, hq]
      · right; refine ⟨by simpa using hq, a, nv _ hv, .inl (by simp [Instr.loadAddress, ha, Except.toOption])⟩
      · left; simp [Instr.usedFields, Instr.readFields, Instr.written, h, hq]
  case ldIdx =>
    rw [exec_ldIdx] at h
    obtain ⟨-, hb | ⟨r, hb, rfl⟩⟩ := execute_next_cases h
    · obtain ⟨_, _, _, _, rfl⟩ := loadWord_eq_ok.1 hb; simp [hr] at ht
    · simp [loadWord, bind_eq_error, eaIndexed_eq_error, mpReadWord_eq_error, rfSet_eq_error] at hb; simp at ht; subst ht
      right
      rcases hb with ⟨h | h, hq⟩ | ⟨a, ha, ⟨hv, hq⟩ | ⟨_, h, hq⟩⟩
      · left; simp [Instr.usedFields, Instr.readFields, Instr.written, h, hq]
      · left; simp [Instr.usedFields, Instr.readFields, Instr.written, h, hq]
      · right; refine ⟨by simpa using hq, a, nv _ hv, .inl (by simp [Instr.loadAddress, ha, Except.toOption])⟩
      · left; simp [Instr.usedFields, Instr.readFields, Instr.written, h, hq]
  case stOff =>
    rw [exec_stOff] at h
    obtain ⟨-, hb | ⟨r, hb, rfl⟩⟩ := execute_next_cases h
    · obtain ⟨_, _, _, _, rfl⟩ := storeWord_eq_ok.1 hb; simp [hr] at ht
    · simp only [storeWord, bind_eq_error, eaOffset_eq_error, mpWriteWord_eq_error, rfGet_eq_error] at hb; simp at ht; subst ht
      right
      rcases hb with ⟨h, hq⟩ | ⟨a, ha, ⟨h, hq⟩ | ⟨_, _, hv, hq⟩⟩
      · left; simp at hq; simp [Instr.usedFields, Instr.readFields, Instr.written, h, hq]
      · left; simp at hq; simp [Instr.usedFields, Instr.readFields, Instr.written, h, hq]
      · right; refine ⟨by simpa using hq, a, nv _ hv, .inr ⟨_, (by simp [Instr.storeAddress, ha, Except.toOption]; rfl)⟩⟩
  case stIdx =>
    rw [exec_stIdx] at h
    obtain ⟨-, hb | ⟨r, hb, rfl⟩⟩ := execute_next_cases h
    · obtain ⟨_, _, _, _, rfl⟩ := storeWord_eq_ok.1 hb; simp [hr] at ht
    · simp only [storeWord, bind_eq_error, eaIndexed_eq_error, mpWriteWord_eq_error, rfGet_eq_error] at hb; simp at ht; subst ht
      right
      rcases hb with ⟨h | h, hq⟩ | ⟨a, ha, ⟨h, hq⟩ | ⟨_, _, hv, hq⟩⟩
      · left; simp at hq; simp [Instr.usedFields, Instr.readFields, Instr.written, h, hq]
      · left; simp at hq; simp [Instr.usedFields, Instr.readFields, Instr.written, h, hq]
      · left; simp at hq; simp [Instr.usedFields, Instr.readFields, Instr.written, h, hq]
      · right; refine ⟨by simpa using hq, a, nv _ hv, .inr ⟨_, (by simp [Instr.storeAddress, ha, Except.toOption]; rfl)⟩⟩
  case mov =>
    rw [exec_mov] at h
    obtain ⟨-, hb | ⟨r, hb, rfl⟩⟩ := execute_next_cases h
    · obtain ⟨_, _, rfl⟩ := aluMove_eq_ok.1 hb; simp [hr] at ht
    · simp [aluMove, bind_eq_error, rfGet_eq_error, rfSet_eq_error] at hb; simp at ht; subst ht
      right; left; rcases hb with ⟨h, hq⟩ | ⟨_, h, hq⟩ <;> simp [Instr.usedFields, Instr.readFields, Instr.written, h, hq]
  case add | and =>
    obtain ⟨-, hb | ⟨r, hb, rfl⟩⟩ := execute_next_cases h
    · obtain ⟨_, _, rfl⟩ := aluBinary_eq_ok.1 hb; simp [hr] at ht
    · simp [aluBinary, bind_eq_error, rfGet_eq_error, rfSet_eq_error] at hb; simp at ht; subst ht
      right; left; rcases hb with ⟨h, hq⟩ | ⟨_, ⟨h, hq⟩ | ⟨_, h, hq⟩⟩ <;> simp [Instr.usedFields, Instr.readFields, Instr.written, h, hq]
  case inc | inca | dec | deca | not =>
    obtain ⟨-, hb | ⟨r, hb, rfl⟩⟩ := execute_next_cases h
    · obtain ⟨_, rfl⟩ := aluUnary_eq_ok.1 hb; simp [hr] at ht
    · simp [aluUnary, bind_eq_error, rfGet_eq_error, rfSet_eq_error] at hb; simp at ht; subst ht
      right; left; rcases hb with ⟨h, hq⟩ | ⟨_, h, hq⟩  <;> simp [Instr.usedFields, Instr.readFields, Instr.written, h, hq]
  case shift =>
    obtain ⟨-, hb | ⟨r, hb, rfl⟩⟩ := execute_next_cases h
    · obtain ⟨_, _, _, rfl⟩ := shiftRegister_eq_ok.1 hb; simp [hr] at ht
    · simp only [shiftRegister, bind_eq_error, rfGet_eq_error] at hb; simp at ht; subst ht
      right; left
      rcases hb with ⟨h, hq⟩ | ⟨a, _, h⟩
      · simp at hq;  simp [Instr.usedFields, Instr.readFields, Instr.written, h, hq]
      · split at h
        · rw [rfSet_eq_error] at h; obtain ⟨h, hq⟩ := h; simp at hq; simp [Instr.usedFields, Instr.readFields, Instr.written, h, hq]
        · simp at h

end Sys2Proof.Machine
end

