-- ==== Sys2Proof/Laws/Step.lean ====
section
/-! SUPPORT. What the fetch unit and a cycle can do. -/

namespace Sys2Proof.Machine

/-- All the reads of a fetch can do when they succeed (40_fetch_unit.md R70). -/
theorem fetchLatches_eq_ok {s : State} {ir : IR} :
    fetchLatches s = .ok ir ↔
      valid s.params s.pc 2 .hdr = true ∧
        (hasExtension (highNibble (s.mem.byte s.pc.toNat)) = true ∧ valid s.params (s.pc + 2#32) 4 .ext = true ∧
            ir = latchFields (s.mem.byte s.pc.toNat) (s.mem.byte (s.pc.toNat + 1)) (s.mem.word (s.pc + 2#32).toNat) ∨
          hasExtension (highNibble (s.mem.byte s.pc.toNat)) = false ∧
            ir = latchFields (s.mem.byte s.pc.toNat) (s.mem.byte (s.pc.toNat + 1)) 0#32) := by
  simp only [fetchLatches, bind_eq_ok, mpReadHeader_eq_ok]
  constructor
  · rintro ⟨h, ⟨hv, rfl⟩, hf⟩
    refine ⟨hv, ?_⟩
    split at hf
    next hx =>
      obtain ⟨e, he, h2⟩ := bind_eq_ok.1 hf
      obtain ⟨hve, rfl⟩ := mpReadWord_eq_ok.1 he
      exact .inl ⟨hx, hve, by cases h2; rfl⟩
    next hx => exact .inr ⟨by simpa using hx, by cases hf; rfl⟩
  · rintro ⟨hv, ⟨hx, hve, rfl⟩ | ⟨hx, rfl⟩⟩
    · refine ⟨_, ⟨hv, rfl⟩, ?_⟩
      simp only [hx, if_true, bind_eq_ok]
      exact ⟨_, mpReadWord_eq_ok.2 ⟨hve, rfl⟩, rfl⟩
    · exact ⟨_, ⟨hv, rfl⟩, by simp [hx]; rfl⟩

/-- A fetch stops only by AddressError (40_fetch_unit.md R75). -/
theorem fetchLatches_eq_error {s : State} {e : Stop} (h : fetchLatches s = .error e) : e = .raise .addressError := by
  simp only [fetchLatches, bind_eq_error, mpReadHeader_eq_ok, mpReadHeader_eq_error] at h
  rcases h with ⟨-, rfl⟩ | ⟨p, -, h⟩
  · rfl
  · split at h
    · rcases bind_eq_error.1 h with h | ⟨e', -, h⟩
      · exact (mpReadWord_eq_error.1 h).2
      · cases h
    · cases h

/-- All a successful fetch does: the latches and the PC (40_fetch_unit.md R78). -/
theorem fetch_eq_ok {s t : State} :
    fetch s = .ok t ↔ ∃ ir, fetchLatches s = .ok ir ∧ t = (s.setIR ir).setPc (nextPc s.pc ir) := by
  simp only [fetch, bind_eq_ok, pure, Except.pure, Except.ok.injEq, @eq_comm _ t]

theorem fetch_eq_error {s : State} {e : Stop} (h : fetch s = .error e) : e = .raise .addressError := by
  simp only [fetch, bind_eq_error, pure, Except.pure, reduceCtorEq, and_false, exists_false, or_false] at h
  exact fetchLatches_eq_error h

/-- All a cycle can do when it answers a next state: the fetch faulted, or the execute phase answered it
(41_decode_dispatch.md R80). -/
theorem step_next_cases {s t : State} (h : step s = .next t) :
    s.status = .running ∧
      (fetch s = .error (.raise .addressError) ∧ t = (fetchFailed s).raise .addressError ∨
        ∃ s', fetch s = .ok s' ∧ exec (decodeIR s'.ir) s' = .next t) := by
  unfold step at h
  split at h
  next hr =>
    refine ⟨hr, ?_⟩
    split at h
    next s' hf => exact .inr ⟨s', hf, h⟩
    next e hf =>
      have he := fetch_eq_error hf
      subst he
      exact .inl ⟨hf, by cases h; rfl⟩
  · cases h
  · cases h

/-- A cycle whose fetch succeeds is the execute phase of the fetched instruction. -/
theorem step_of_fetch {s s' : State} (hr : s.status = .running) (hf : fetch s = .ok s') :
    step s = exec (decodeIR s'.ir) s' := by
  simp [step, hr, hf]

end Sys2Proof.Machine
end

