-- ==== Sys2Proof/Laws/Cycle.lean ====
section
/-! SUPPORT. The cycle in the terms of the claims: the code at the PC (Safety.lean) is what the fetch reads and the decoder
decodes. -/

namespace Sys2Proof.Machine

theorem highNibble_eq (b : Byte) : highNibble b = BitVec.ofNat 4 (b.toNat / 16) := by revert b; decide

theorem lowNibble_eq (b : Byte) : lowNibble b = BitVec.ofNat 4 (b.toNat % 16) := by revert b; decide

theorem highNibble_toNat (b : Byte) : (highNibble b).toNat = b.toNat / 16 := by revert b; decide

theorem lowNibble_toNat (b : Byte) : (lowNibble b).toNat = b.toNat % 16 := by revert b; decide

theorem hasExtension_highNibble (b : Byte) :
    hasExtension (highNibble b) = true ↔ b.toNat / 16 = 0 ∨ b.toNat / 16 = 11 := by revert b; decide

theorem not_hasExtension_highNibble (b : Byte) :
    hasExtension (highNibble b) = false ↔ ¬ (b.toNat / 16 = 0 ∨ b.toNat / 16 = 11) := by revert b; decide

variable {s t : State}

theorem codeLatches_eq (s : State) : codeLatches s = latchFields (byte0At s) (byte1At s) (extAt s) := by
  simp [codeLatches, latchFields, highNibble_eq, lowNibble_eq]

theorem instrLength_codeLatches (s : State) : instrLength (codeLatches s).opcode = codeLength s := by
  rw [codeLatches_eq, latchFields_opcode, instrLength, codeLength]
  by_cases hl : longAt s
  · rw [if_pos hl, if_pos ((hasExtension_highNibble _).2 hl)]
  · rw [if_neg hl, if_neg fun h => hl ((hasExtension_highNibble _).1 h)]

/-- The bytes at the PC always decode, with none left over, to the instruction in the latches. -/
theorem decode_codeBytes (s : State) : decode (codeBytes s) = .ok (decodeIR (codeLatches s), []) := by
  rw [codeLatches_eq]
  by_cases hl : longAt s
  · simp only [codeBytes, if_pos hl, extensionAt]
    rw [decode_long ((hasExtension_highNibble _).2 hl)]
    simp only [extAt, if_pos hl, wordOfBytes]
  · simp only [codeBytes, if_neg hl]
    rw [decode_short ((not_hasExtension_highNibble _).2 hl)]
    simp only [extAt, if_neg hl]

theorem fetchLatches_of_readable (h : codeReadable s) : fetchLatches s = .ok (codeLatches s) := by
  obtain ⟨h1, h2⟩ := h
  rw [fetchLatches_eq_ok, codeLatches_eq]
  refine ⟨(valid_hdr_iff _ _).2 h1, ?_⟩
  by_cases hl : longAt s
  · refine .inl ⟨(hasExtension_highNibble _).2 hl, (valid_ext_iff _ _).2 (h2 hl), ?_⟩
    simp only [extAt, if_pos hl]; rfl
  · refine .inr ⟨(not_hasExtension_highNibble _).2 hl, ?_⟩
    simp only [extAt, if_neg hl]; rfl

/-- The state between the phases: the latches written and the PC advanced, nothing else. -/
def fetched (s : State) : State := { s with ir := codeLatches s, pc := s.pc + BitVec.ofNat 32 (codeLength s) }

theorem fetch_of_readable (h : codeReadable s) : fetch s = .ok (fetched s) := by
  refine fetch_eq_ok.2 ⟨_, fetchLatches_of_readable h, ?_⟩
  simp only [nextPc, instrLength_codeLatches]; rfl

theorem readable_of_fetch (h : fetch s = .ok t) : codeReadable s := by
  obtain ⟨ir, hir, -⟩ := fetch_eq_ok.1 h
  obtain ⟨h1, h2⟩ := fetchLatches_eq_ok.1 hir
  refine ⟨(valid_hdr_iff _ _).1 h1, fun hl => ?_⟩
  rcases h2 with ⟨-, he, -⟩ | ⟨hx, -⟩
  · exact (valid_ext_iff _ _).1 he
  · exact absurd hl ((not_hasExtension_highNibble _).1 hx)

theorem fetch_of_not_readable (h : ¬ codeReadable s) : fetch s = .error (.raise .addressError) := by
  cases hf : fetch s with
  | ok t => exact absurd (readable_of_fetch hf) h
  | error e => rw [fetch_eq_error hf]

theorem step_of_readable (hr : s.status = .running) (h : codeReadable s) :
    step s = exec (decodeIR (codeLatches s)) (fetched s) := by
  rw [step_of_fetch hr (fetch_of_readable h)]; rfl

theorem step_of_not_readable (hr : s.status = .running) (h : ¬ codeReadable s) :
    step s = .next ((fetchFailed s).raise .addressError) := by
  simp [step, hr, fetch_of_not_readable h, stopCycle]

/-- All a cycle can do, in the terms of the claims. -/
theorem step_next_code {s t : State} (h : step s = .next t) :
    s.status = .running ∧
      (¬ codeReadable s ∧ t = (fetchFailed s).raise .addressError ∨
        codeReadable s ∧ exec (decodeIR (codeLatches s)) (fetched s) = .next t) := by
  have hr := (step_next_cases h).1
  refine ⟨hr, ?_⟩
  by_cases hc : codeReadable s
  · rw [step_of_readable hr hc] at h; exact .inr ⟨hc, h⟩
  · rw [step_of_not_readable hr hc] at h; cases h; exact .inl ⟨hc, rfl⟩

end Sys2Proof.Machine
end

