-- ==== Sys2Proof/Laws/PerInstr.lean ====
section
/-! SUPPORT. Statements made per instruction: the length of an encoding (30_encoding.md R50, R55). -/

namespace Sys2Proof.Laws.EncodedLength

/-- The encoding of an instruction is 6 bytes long when it is ld.imm or reserved.b, and 2 bytes otherwise; the top
nibble of its first byte says which. -/
def Statement (i : Instr) : Prop :=
  ∃ b0 b1 rest, encode i = b0 :: b1 :: rest ∧ (encode i).length = instrLength (highNibble b0)

theorem ldImm (rd : _) (pad : _) (value : _) : Statement (.ldImm rd pad value) :=
  ⟨_, _, _, rfl, by simp [encode, instrLength, hasExtension]⟩

theorem ldOff (offset : _) (base : _) (rd : _) : Statement (.ldOff offset base rd) :=
  ⟨_, _, _, rfl, by simp [encode, instrLength, hasExtension]⟩

theorem ldIdx (base : _) (index : _) (rd : _) : Statement (.ldIdx base index rd) :=
  ⟨_, _, _, rfl, by simp [encode, instrLength, hasExtension]⟩

theorem stOff (rs : _) (offset : _) (base : _) : Statement (.stOff rs offset base) :=
  ⟨_, _, _, rfl, by simp [encode, instrLength, hasExtension]⟩

theorem stIdx (rs : _) (base : _) (index : _) : Statement (.stIdx rs base index) :=
  ⟨_, _, _, rfl, by simp [encode, instrLength, hasExtension]⟩

theorem mov (rs : _) (rd : _) : Statement (.mov rs rd) :=
  ⟨_, _, _, rfl, by simp [encode, instrLength, hasExtension]⟩

theorem add (rs : _) (rd : _) : Statement (.add rs rd) :=
  ⟨_, _, _, rfl, by simp [encode, instrLength, hasExtension]⟩

theorem and (rs : _) (rd : _) : Statement (.and rs rd) :=
  ⟨_, _, _, rfl, by simp [encode, instrLength, hasExtension]⟩

theorem inc (pad : _) (rd : _) : Statement (.inc pad rd) :=
  ⟨_, _, _, rfl, by simp [encode, instrLength, hasExtension]⟩

theorem inca (pad : _) (rd : _) : Statement (.inca pad rd) :=
  ⟨_, _, _, rfl, by simp [encode, instrLength, hasExtension]⟩

theorem dec (pad : _) (rd : _) : Statement (.dec pad rd) :=
  ⟨_, _, _, rfl, by simp [encode, instrLength, hasExtension]⟩

theorem deca (pad : _) (rd : _) : Statement (.deca pad rd) :=
  ⟨_, _, _, rfl, by simp [encode, instrLength, hasExtension]⟩

theorem not (pad : _) (rd : _) : Statement (.not pad rd) :=
  ⟨_, _, _, rfl, by simp [encode, instrLength, hasExtension]⟩

theorem shift (rd : _) (amount : _) : Statement (.shift rd amount) :=
  ⟨_, _, _, rfl, by simp [encode, instrLength, hasExtension]⟩

theorem halt (pad : _) : Statement (.halt pad) :=
  ⟨_, _, _, rfl, by simp [encode, instrLength, hasExtension]⟩

theorem nop (pad : _) : Statement (.nop pad) :=
  ⟨_, _, _, rfl, by simp [encode, instrLength, hasExtension]⟩

theorem nopU (selector : _) (pad : _) : Statement (.nopU selector pad) :=
  ⟨_, _, _, rfl, by simp [encode, instrLength, hasExtension]⟩

theorem reserved5 (op0 : _) (pad : _) : Statement (.reserved5 op0 pad) :=
  ⟨_, _, _, rfl, by simp [encode, instrLength, hasExtension]⟩

theorem reserved8 (op0 : _) (pad : _) : Statement (.reserved8 op0 pad) :=
  ⟨_, _, _, rfl, by simp [encode, instrLength, hasExtension]⟩

theorem reserved9 (op0 : _) (pad : _) : Statement (.reserved9 op0 pad) :=
  ⟨_, _, _, rfl, by simp [encode, instrLength, hasExtension]⟩

theorem reservedA (op0 : _) (pad : _) : Statement (.reservedA op0 pad) :=
  ⟨_, _, _, rfl, by simp [encode, instrLength, hasExtension]⟩

theorem reservedC (op0 : _) (pad : _) : Statement (.reservedC op0 pad) :=
  ⟨_, _, _, rfl, by simp [encode, instrLength, hasExtension]⟩

theorem reservedD (op0 : _) (pad : _) : Statement (.reservedD op0 pad) :=
  ⟨_, _, _, rfl, by simp [encode, instrLength, hasExtension]⟩

theorem reservedE (op0 : _) (pad : _) : Statement (.reservedE op0 pad) :=
  ⟨_, _, _, rfl, by simp [encode, instrLength, hasExtension]⟩

theorem reservedB (op0 : _) (pad : _) (ext : _) : Statement (.reservedB op0 pad ext) :=
  ⟨_, _, _, rfl, by simp [encode, instrLength, hasExtension]⟩

theorem reservedAlu (selector : _) (pad : _) : Statement (.reservedAlu selector pad) :=
  ⟨_, _, _, rfl, by simp [encode, instrLength, hasExtension]⟩

end Sys2Proof.Laws.EncodedLength
end

