-- ==== Sys2Proof/Tests/Slice0.lean ====
section
/-! SUPPORT. Tests, whose expected results come from 95_test_vectors.md (the vector is named) or from the encodings of
30_encoding.md, and one witness per clause of every obligation that has hypotheses. -/

open Sys2Proof Sys2Proof.Machine

namespace Sys2Proof.Tests

/-! ### Helpers -/

/-- The parameters of 95_test_vectors.md. -/
def par : Params := { memSize := 0x1000, dataAlign4 := true, fetchAlign2 := true, shiftRule := .mod32, resetPc := 0x100#32 }

/-- Eight registers of value zero. -/
def zeros : Vector Word 8 := Vector.replicate 8 0#32

/-- A machine just reset. -/
def bed (p : Params) (regs : Vector Word 8) (m : Memory) : State := State.powerOn p regs resetIR m

/-- The machine of `par` with code at 0x100 and two registers, r1 and r2. -/
def bed12 (r1 r2 : Word) (code : List Byte) : State :=
  bed par ((zeros.set 1 r1).set 2 r2) (Memory.load [] 0x100 code)

/-- The start state of section 2.3, with code at 0x100. -/
def bedM (p : Params) (code : List Byte) : State :=
  bed p #v[0x200#32, 0x202#32, 2#32, 0xFFFFFFFF#32, 0xFFFFFFFC#32, 0xFFC#32, 0xDEADBEEF#32, 0x40000002#32]
    (Memory.load (Memory.load (Memory.load (Memory.load [] 0x100 code) 0x200
      [0x11#8, 0x22#8, 0x33#8, 0x44#8, 0x55#8, 0x66#8, 0x77#8, 0x88#8, 0#8, 0#8, 2#8, 0#8, 0xFF#8, 0xFF#8, 0xFF#8, 0xF0#8])
      0x004 [0xCA#8, 0xFE#8, 0xF0#8, 0x0D#8]) 0xFFC [1#8, 2#8, 3#8, 4#8])

/-- The start state of section 2.7. -/
def bedX (code : List Byte) : State := bed par ((zeros.set 0 0x2000#32).set 1 0x200#32) (Memory.load [] 0x100 code)

/-- A machine with PC = `pc` and bytes there. -/
def bedAt (p : Params) (pc : Word) (code : List Byte) : State :=
  bed { p with resetPc := pc } zeros (Memory.load [] pc.toNat code)

/-- What is asked of the next state, if there is one. -/
def after {α : Type} (o : Host.Outcome State Fault Refusal) (f : State → α) : Option α :=
  match o with
  | .next t => some (f t)
  | .fault _ => none
  | .refused _ => none

/-- The refusal, if there is one. -/
def refusal (o : Host.Outcome State Fault Refusal) : Option Refusal :=
  match o with
  | .next _ => none
  | .fault _ => none
  | .refused q => some q

/-- The instruction a byte string decodes to, if nothing is left over. -/
def decoded (bs : List Byte) : Option Instr :=
  match decode bs with
  | .ok (i, []) => some i
  | .ok (_, _ :: _) => none
  | .error _ => none

/-- One register, the PC and STATUS. -/
def regPcStatus (k : Fin 8) (t : State) : Word × Word × Status := (t.regs[k], t.pc, t.status)

/-- Everything but the latches: for a cycle that must change the PC and STATUS only. -/
def pcStatus (s t : State) : Word × Status × Bool := (t.pc, t.status, decide (t.regs = s.regs ∧ t.mem = s.mem))

/-- Four bytes of memory, and whether the registers are as in `s`. -/
def stored (s : State) (a : Nat) (t : State) : List Byte × Status × Bool :=
  ([t.mem.byte a, t.mem.byte (a + 1), t.mem.byte (a + 2), t.mem.byte (a + 3)], t.status, decide (t.regs = s.regs))

/-! ### WellFormed: each check refuses an ill-formed term -/

theorem test_wf_nopU_low : (Instr.nopU 0#4 0#8).wf = false := by decide
theorem test_wf_nopU_high : (Instr.nopU 15#4 0#8).wf = false := by decide
theorem test_wf_reservedAlu_low : (Instr.reservedAlu 7#4 0#8).wf = false := by decide
theorem test_wf_boundaries : (Instr.nopU 1#4 0#8).wf = true ∧ (Instr.nopU 14#4 0#8).wf = true ∧
    (Instr.reservedAlu 8#4 0#8).wf = true ∧ (Instr.reservedAlu 15#4 0#8).wf = true := by decide

/-! ### Decoding: words written out from 30_encoding.md R56, R59 -/

theorem test_decode_ldImm : decoded [0x03#8, 0xAB#8, 0x12#8, 0x34#8, 0x56#8, 0x78#8] = some (.ldImm 3#4 0xAB#8 0x12345678#32) := by decide
theorem test_decode_ldOff : decoded [0x1F#8, 0x06#8] = some (.ldOff 0xF#4 0#4 6#4) := by decide
theorem test_decode_ldIdx : decoded [0x20#8, 0x36#8] = some (.ldIdx 0#4 3#4 6#4) := by decide
theorem test_decode_stOff : decoded [0x36#8, 0xF0#8] = some (.stOff 6#4 0xF#4 0#4) := by decide
theorem test_decode_stIdx : decoded [0x46#8, 0x53#8] = some (.stIdx 6#4 5#4 3#4) := by decide
theorem test_decode_mov : decoded [0x60#8, 0x23#8] = some (.mov 2#4 3#4) := by decide
theorem test_decode_add : decoded [0x61#8, 0x12#8] = some (.add 1#4 2#4) := by decide
theorem test_decode_and : decoded [0x62#8, 0x13#8] = some (.and 1#4 3#4) := by decide
theorem test_decode_inc : decoded [0x63#8, 0x92#8] = some (.inc 9#4 2#4) := by decide
theorem test_decode_inca : decoded [0x64#8, 0x05#8] = some (.inca 0#4 5#4) := by decide
theorem test_decode_dec : decoded [0x65#8, 0x01#8] = some (.dec 0#4 1#4) := by decide
theorem test_decode_deca : decoded [0x66#8, 0x75#8] = some (.deca 7#4 5#4) := by decide
theorem test_decode_not : decoded [0x67#8, 0x02#8] = some (.not 0#4 2#4) := by decide
theorem test_decode_shift : decoded [0x72#8, 0xFE#8] = some (.shift 2#4 0xFE#8) := by decide
theorem test_decode_halt : decoded [0xF0#8, 0x7C#8] = some (.halt 0x7C#8) := by decide
theorem test_decode_nop : decoded [0xFF#8, 0x99#8] = some (.nop 0x99#8) := by decide
theorem test_decode_nopU_low : [0xF1#8, 0xF2#8, 0xF3#8, 0xF4#8, 0xF5#8, 0xF6#8, 0xF7#8].map (fun b => decoded [b, 0x5A#8]) =
    [1#4, 2#4, 3#4, 4#4, 5#4, 6#4, 7#4].map (fun k => some (.nopU k 0x5A#8)) := by decide
theorem test_decode_nopU_high : [0xF8#8, 0xF9#8, 0xFA#8, 0xFB#8, 0xFC#8, 0xFD#8, 0xFE#8].map (fun b => decoded [b, 0x5A#8]) =
    [8#4, 9#4, 10#4, 11#4, 12#4, 13#4, 14#4].map (fun k => some (.nopU k 0x5A#8)) := by decide
theorem test_decode_reserved5 : decoded [0x5A#8, 0xBC#8] = some (.reserved5 0xA#4 0xBC#8) := by decide
theorem test_decode_reserved8 : decoded [0x80#8, 0x04#8] = some (.reserved8 0#4 0x04#8) := by decide
theorem test_decode_reserved9 : decoded [0x91#8, 0x23#8] = some (.reserved9 1#4 0x23#8) := by decide
theorem test_decode_reservedA : decoded [0xA1#8, 0x23#8] = some (.reservedA 1#4 0x23#8) := by decide
theorem test_decode_reservedC : decoded [0xC1#8, 0x00#8] = some (.reservedC 1#4 0#8) := by decide
theorem test_decode_reservedD : decoded [0xDF#8, 0x01#8] = some (.reservedD 0xF#4 1#8) := by decide
theorem test_decode_reservedE : decoded [0xEF#8, 0x01#8] = some (.reservedE 0xF#4 1#8) := by decide
theorem test_decode_reservedB : decoded [0xB7#8, 0x80#8, 0xFF#8, 0xFF#8, 0xFF#8, 0xFE#8] = some (.reservedB 7#4 0x80#8 0xFFFFFFFE#32) := by decide
theorem test_decode_reservedAlu : decoded [0x69#8, 0x9C#8] = some (.reservedAlu 9#4 0x9C#8) ∧
    decoded [0x68#8, 0x00#8] = some (.reservedAlu 8#4 0#8) ∧ decoded [0x6F#8, 0x01#8] = some (.reservedAlu 0xF#4 1#8) := by decide

/-- Bytes can only be missing (30_encoding.md R65). -/
theorem test_decode_truncated : decode [0x61#8] = .error .truncatedHeader ∧
    decode [0x03#8, 0#8, 1#8, 2#8, 3#8] = .error .truncatedExtension := ⟨rfl, rfl⟩

/-- The table's numbering: bits 15 to 0 are the header with byte0 on top (spec/opcode_table.json; log 16). -/
theorem test_decodeTableWord : decodeTableWord 16 0x6112 = some (.add 1#4 2#4) ∧
    decodeTableWord 16 0xF100 = some (.nopU 1#4 0#8) ∧ decodeTableWord 48 0x0300 = some (.ldImm 3#4 0#8 0#32) ∧
    decodeTableWord 16 0x0300 = some (.ldImm 3#4 0#8 0#32) := by decide

/-- The second table word holds the two upper bytes of the extension (log 16). -/
theorem test_decodeTableWord_extension : decodeTableWord 48 0x5678123403AB = some (.ldImm 3#4 0xAB#8 0x12345678#32) := by decide

/-- The word placed is the word run, first after reset (70_reset_and_hazards.md R152). -/
theorem test_withFetchWord : after (step (State.reset.withFetchWord 48 0x5678123403AB)) (regPcStatus 3) =
    some (0x12345678#32, 0x106#32, .running) := by decide

/-! ### Loads and stores (95_test_vectors.md 2.1, 2.3) -/

/-- F3. -/
theorem test_ldImm : after (step (bed12 0 0 [0x03#8, 0xAB#8, 0x12#8, 0x34#8, 0x56#8, 0x78#8]))
    (fun t => (regPcStatus 3 t, t.ir.imm.toInt, t.ir.raw)) = some ((0x12345678#32, 0x106#32, .running), -85, 0x03AB12345678#48) := by decide
/-- M2. -/
theorem test_ldImm_range : after (step (bed12 0 0 [0x08#8, 0#8, 0#8, 0#8, 0#8, 1#8])) (pcStatus (bed12 0 0 [0x08#8, 0#8, 0#8, 0#8, 0#8, 1#8])) =
    some (0x106#32, .faulted .registerRangeError, true) := by decide
/-- M6: offset nibble F is 60, not -4; and M3 in the second part: big-endian. -/
theorem test_ldOff : after (step (bedM par [0x1F#8, 0x06#8])) (regPcStatus 6) = some (0#32, 0x102#32, .running) ∧
    after (step (bedM par [0x10#8, 0x06#8])) (regPcStatus 6) = some (0x11223344#32, 0x102#32, .running) := by decide
/-- M11: the address wraps; M10: the word past the end. -/
theorem test_ldOff_wrap : after (step (bedM par [0x12#8, 0x46#8])) (regPcStatus 6) = some (0xCAFEF00D#32, 0x102#32, .running) ∧
    after (step (bedM par [0x11#8, 0x56#8])) (regPcStatus 6) = some (0xDEADBEEF#32, 0x102#32, .faulted .addressError) := by decide
/-- M15: the two top bits of the index are lost. -/
theorem test_ldIdx : after (step (bedM par [0x20#8, 0x76#8])) (regPcStatus 6) = some (0x00000200#32, 0x102#32, .running) := by decide
/-- M16 under both settings of DATA_ALIGN4: base, index and destination are one register. -/
theorem test_ldIdx_align : after (step (bedM par [0x22#8, 0x22#8])) (regPcStatus 2) = some (2#32, 0x102#32, .faulted .addressError) ∧
    after (step (bedM { par with dataAlign4 := false } [0x22#8, 0x22#8])) (regPcStatus 2) = some (0#32, 0x102#32, .running) := by decide
/-- M17. -/
theorem test_stOff : after (step (bedM par [0x36#8, 0x20#8])) (stored (bedM par []) 0x208) =
    some ([0xDE#8, 0xAD#8, 0xBE#8, 0xEF#8], .running, true) := by decide
/-- M20 with DATA_ALIGN4 = false: an unaligned store, and its neighbours. -/
theorem test_stOff_unaligned : after (step (bedM { par with dataAlign4 := false } [0x36#8, 0x01#8]))
    (fun t => (stored (bedM par []) 0x200 t, stored (bedM par []) 0x204 t)) =
    some (([0x11#8, 0x22#8, 0xDE#8, 0xAD#8], .running, true), ([0xBE#8, 0xEF#8, 0x77#8, 0x88#8], .running, true)) := by decide
/-- M24: a negative index. -/
theorem test_stIdx : after (step (bedM par [0x46#8, 0x53#8])) (stored (bedM par []) 0xFF8) =
    some ([0xDE#8, 0xAD#8, 0xBE#8, 0xEF#8], .running, true) := by decide
/-- M25: nothing is written. -/
theorem test_stIdx_fault : after (step (bedM par [0x46#8, 0x52#8])) (pcStatus (bedM par [0x46#8, 0x52#8])) =
    some (0x102#32, .faulted .addressError, true) := by decide

/-! ### The ALU group (2.4) -/

/-- A1. -/
theorem test_mov : after (step (bed12 0 4 [0x60#8, 0x23#8])) (regPcStatus 3) = some (4#32, 0x102#32, .running) := by decide
/-- A3 (S3). -/
theorem test_add : after (step (bed12 0x7FFFFFFF 1 [0x61#8, 0x12#8])) (fun t => (t.regs[1], t.regs[2], t.status)) =
    some (0x7FFFFFFF#32, 0x80000000#32, .running) := by decide
/-- A5: source and destination are one register. -/
theorem test_add_same : after (step (bed12 0x80000000 0 [0x61#8, 0x11#8])) (regPcStatus 1) = some (0#32, 0x102#32, .running) := by decide
/-- A9, with r2 for r3. -/
theorem test_and : after (step (bed12 0xFF00FF00 0x0FF00FF0 [0x62#8, 0x12#8])) (regPcStatus 2) = some (0x0F000F00#32, 0x102#32, .running) := by decide
/-- A13: op1 = 9 is a don't-care. -/
theorem test_inc : after (step (bed12 0 0x7FFFFFFF [0x63#8, 0x92#8])) (regPcStatus 2) = some (0x80000000#32, 0x102#32, .running) := by decide
/-- A16, on r2. -/
theorem test_inca : after (step (bed12 0 0xFFFFFFFE [0x64#8, 0x02#8])) (regPcStatus 2) = some (2#32, 0x102#32, .running) := by decide
/-- A18. -/
theorem test_dec : after (step (bed12 0 0 [0x65#8, 0x01#8])) (regPcStatus 1) = some (0xFFFFFFFF#32, 0x102#32, .running) := by decide
/-- A22, on r2. -/
theorem test_deca : after (step (bed12 0 3 [0x66#8, 0x02#8])) (regPcStatus 2) = some (0xFFFFFFFF#32, 0x102#32, .running) := by decide
/-- A23. -/
theorem test_not : after (step (bed12 0 0xFFFFFFFC [0x67#8, 0x02#8])) (regPcStatus 2) = some (3#32, 0x102#32, .running) := by decide
/-- A26, A27, A28: the register fields above 7. -/
theorem test_alu_range : [[0x61#8, 0x9A#8], [0x61#8, 0x1A#8], [0x63#8, 0x0A#8]].map (fun c => after (step (bed12 1 2 c)) (pcStatus (bed12 1 2 c))) =
    List.replicate 3 (some (0x102#32, .faulted .registerRangeError, true)) := by decide

/-! ### Shift (2.5), halt, no-ops, reserved encodings (2.2, 2.6) -/

/-- H3 (S6), H9, H4, H10: sign, rounding, the largest left shift, count 0. -/
theorem test_shift : [(0xFFFFFFF8#32, 0xFF#8), (0xFFFFFFF9#32, 0xFF#8), (1#32, 0x1F#8), (0x12345678#32, 0#8)].map (fun c =>
    after (step (bed12 0 c.1 [0x72#8, c.2])) (fun t => t.regs[2])) =
    [some 0xFFFFFFFC#32, some 0xFFFFFFFC#32, some 0x80000000#32, some 0x12345678#32] := by decide
/-- H26 and H30 under each SHIFT_RULE: counts of 33 and 128 to the right. -/
theorem test_shift_beyond : [ShiftRule.mod32, .saturate].map (fun r =>
      (after (exec (.shift 2#4 0xDF#8) (bed { par with shiftRule := r } (zeros.set 2 0x87654321) [])) (fun t => t.regs[2]),
        after (exec (.shift 2#4 0x80#8) (bed { par with shiftRule := r } (zeros.set 2 0x87654321) [])) (fun t => t.regs[2]))) =
      [(some 0xC3B2A190#32, some 0x87654321#32), (some 0xFFFFFFFF#32, some 0xFFFFFFFF#32)] ∧
    refusal (exec (.shift 2#4 0x80#8) (bed { par with shiftRule := .refuse } zeros [])) = some .shiftCountRefused := by decide
/-- D9, T1: halt, whatever byte1 is. -/
theorem test_halt : after (step (bed12 1 2 [0xF0#8, 0x7C#8])) (pcStatus (bed12 1 2 [0xF0#8, 0x7C#8])) = some (0x102#32, .halted, true) := by decide
/-- D10, D8: nop and nop.u. -/
theorem test_nops : [[0xFF#8, 0x99#8], [0xF7#8, 0x00#8], [0xF1#8, 0x00#8], [0xFE#8, 0xFF#8]].map (fun c => after (step (bed12 1 2 c)) (pcStatus (bed12 1 2 c))) =
    List.replicate 4 (some (0x102#32, .running, true)) := by decide
/-- D2 to D6, X11, X12: the 2-byte reserved encodings. -/
theorem test_reserved : [[0x69#8, 0x0C#8], [0x6F#8, 0x01#8], [0x5F#8, 0xFF#8], [0x80#8, 0x04#8], [0xC1#8, 0#8], [0x69#8, 0x9C#8], [0x5A#8, 0xBC#8]].map
    (fun c => after (step (bed12 1 2 c)) (pcStatus (bed12 1 2 c))) = List.replicate 7 (some (0x102#32, .faulted .decodeError, true)) := by decide
/-- D7 (P5): opcode 0xB takes its extension into the latch, and is no jump. -/
theorem test_reservedB : after (step (bed12 1 2 [0xB0#8, 0#8, 0#8, 0#8, 1#8, 0#8])) (fun t => (t.pc, t.status, t.ir.ext, t.ir.raw)) =
    some (0x106#32, .faulted .decodeError, 0x100#32, 0xB00000000100#48) := by decide

/-! ### The fetch unit (2.1), faults (2.7), reset (2.8) -/

/-- F12, F14, F15, F16, F17, F11, T3: PC and STATUS after a cycle at the edges of memory. -/
theorem test_fetch_edges :
    [(0xFFC#32, [0#8, 0#8]), (0xFFC#32, [0xB0#8, 0#8]), (0xFFC#32, [0x50#8, 0#8]), (0x101#32, [0xFF#8, 0#8]), (0xFFF#32, []), (0x1000#32, [])].map
      (fun c => after (step (bedAt par c.1 c.2)) (fun t => (t.pc, t.status))) =
    [some (0xFFC#32, .faulted .addressError), some (0xFFC#32, .faulted .addressError), some (0xFFE#32, .faulted .decodeError),
      some (0x101#32, .faulted .addressError), some (0xFFF#32, .faulted .addressError), some (0x1000#32, .faulted .addressError)] := by decide
/-- F10, F13, and F16 with FETCH_ALIGN2 = false. -/
theorem test_fetch_last : after (step (bedAt par 0xFFE#32 [0xFF#8, 0#8])) (fun t => (t.pc, t.status)) = some (0x1000#32, .running) ∧
    after (step (bedAt par 0xFFA#32 [3#8, 0#8, 0#8, 0#8, 0#8, 7#8])) (regPcStatus 3) = some (7#32, 0x1000#32, .running) ∧
    after (step (bedAt { par with fetchAlign2 := false } 0x101#32 [0xFF#8, 0#8])) (fun t => (t.pc, t.status)) = some (0x103#32, .running) := by decide
/-- F20, F22: the PC and the extension address wrap when MEM_SIZE = 2^32 (D6). -/
theorem test_fetch_wrap :
    after (step (bedAt { par with memSize := 4294967296 } 0xFFFFFFFE#32 [0xFF#8, 0#8])) (fun t => (t.pc, t.status)) = some (0#32, .running) ∧
    after (step (bed { par with memSize := 4294967296, resetPc := 0xFFFFFFFE#32 } zeros (Memory.load (Memory.load [] 0 [0#8, 0#8, 0#8, 5#8]) 0xFFFFFFFE [2#8, 0#8])))
      (regPcStatus 2) = some (5#32, 4#32, .running) := by decide
/-- X1 to X10: which fault is reported. -/
theorem test_fault_priority :
    [[0x10#8, 0x91#8], [0x10#8, 0x09#8], [0x10#8, 0x19#8], [0x39#8, 0x00#8], [0x39#8, 0x0A#8], [0x31#8, 0x00#8], [0x29#8, 0x12#8], [0x21#8, 0x92#8],
      [0x49#8, 0x10#8], [0x41#8, 0x10#8]].map (fun c => after (step (bedX c)) (pcStatus (bedX c))) =
    [Fault.registerRangeError, .addressError, .registerRangeError, .registerRangeError, .registerRangeError, .addressError, .registerRangeError,
      .registerRangeError, .registerRangeError, .addressError].map (fun r => some (0x102#32, .faulted r, true)) := by decide
/-- The codes of 60_exceptions.md R131. -/
theorem test_status_codes : [Status.running, .halted, .faulted .decodeError, .faulted .addressError, .faulted .registerRangeError].map
    (fun x => (statusCode x, reasonCode x)) = [(0, 0), (1, 0), (2, 1), (2, 2), (2, 3)] := by decide
/-- The canonical form: writing the unlisted value removes the cell. -/
theorem test_memory_canonical : Memory.setByte (Memory.load [] 4 [1#8, 2#8, 3#8]) 5 0#8 = [(4, 1#8), (6, 3#8)] := by decide

/-! ### Witnesses: concrete inputs that meet all the hypotheses of a statement, clause by clause, at the boundaries -/

/-- A next state that has what is asked of it. -/
theorem exists_next {α : Type} {o : Host.Outcome State Fault Refusal} {f : State → α} {v : α} (h : after o f = some v) :
    ∃ t, o = .next t ∧ f t = v := by
  cases o with
  | next t => exact ⟨t, rfl, by simpa [after] using h⟩
  | fault r => cases h
  | refused q => cases h

/-- The two selector checks at their bounds. -/
theorem witness_DecodeInvertsEncode : (Instr.nopU 14#4 0xFF#8).wf = true ∧ (Instr.reservedAlu 8#4 0#8).wf = true ∧
    decode (encode (.nopU 14#4 0xFF#8) ++ [0xAA#8]) = .ok (.nopU 14#4 0xFF#8, [0xAA#8]) := ⟨rfl, rfl, rfl⟩

theorem witness_EncodeInvertsDecode : decode [0x61#8, 0x12#8, 0xAA#8] = .ok (.add 1#4 2#4, [0xAA#8]) ∧
    decode [0xBF#8, 0#8, 1#8, 2#8, 3#8, 4#8] = .ok (.reservedB 0xF#4 0#8 0x01020304#32, []) := ⟨rfl, rfl⟩

/-- The opcode nibbles beside 0x0 and 0xB, the shortest byte strings that decode and the longest that do not. -/
theorem witness_LengthComesFromOpcodeNibble :
    decoded [0x0F#8, 0#8, 1#8, 2#8, 3#8, 4#8] = some (.ldImm 0xF#4 0#8 0x01020304#32) ∧ decoded [0x10#8, 0#8] = some (.ldOff 0#4 0#4 0#4) ∧
    decoded [0xAF#8, 0#8] = some (.reservedA 0xF#4 0#8) ∧ decoded [0xB0#8, 0#8, 1#8, 2#8, 3#8, 4#8] = some (.reservedB 0#4 0#8 0x01020304#32) ∧
    decoded [0xC0#8, 0#8] = some (.reservedC 0#4 0#8) ∧ decode [0xB0#8, 0#8, 1#8, 2#8, 3#8] = .error .truncatedExtension :=
  ⟨by decide, by decide, by decide, by decide, by decide, rfl⟩

theorem witness_LengthComesFromOpcodeNibble_step : codeReadable (bedAt par 0xFFA#32 [3#8, 0#8, 0#8, 0#8, 0#8, 7#8]) ∧
    (∃ t, step (bedAt par 0xFFA#32 [3#8, 0#8, 0#8, 0#8, 0#8, 7#8]) = .next t ∧ t.pc = 0x1000#32) ∧
    codeReadable (bedAt par 0xFFE#32 [0xFF#8, 0#8]) ∧ ∃ t, step (bedAt par 0xFFE#32 [0xFF#8, 0#8]) = .next t ∧ t.pc = 0x1000#32 :=
  ⟨by decide, exists_next (by decide), by decide, exists_next (by decide)⟩

theorem witness_RowSelectedByOpcodeAndOp0 : ∃ ir ir' : IR, ir.opcode = ir'.opcode ∧ ir.op0 = ir'.op0 ∧ ir ≠ ir' ∧
    (decodeIR ir).mnemonic = "reserved.alu" :=
  ⟨{ resetIR with opcode := 6#4, op0 := 8#4 }, { resetIR with opcode := 6#4, op0 := 8#4, op1 := 9#4, ext := 1#32 }, by decide⟩

theorem witness_StepRunsDecodedInstruction : (bed12 1 2 [0x61#8, 0x12#8]).status = .running ∧ codeReadable (bed12 1 2 [0x61#8, 0x12#8]) ∧
    decode (codeBytes (bed12 1 2 [0x61#8, 0x12#8])) = .ok (.add 1#4 2#4, []) := ⟨rfl, by decide, rfl⟩

/-- byte1 at the two bounds of its sign, 0x7F and 0x80. -/
theorem witness_FetchExtractsHeaderFields : codeReadable (bed12 0 0 [0xF0#8, 0x7F#8]) ∧ codeReadable (bed12 0 0 [0xF0#8, 0x80#8]) ∧
    (byte1At (bed12 0 0 [0xF0#8, 0x7F#8])).toNat = 127 ∧ (byte1At (bed12 0 0 [0xF0#8, 0x80#8])).toNat = 128 := by decide

/-- The last header of memory, fetched alike from a memory that differs elsewhere; and a 6-byte fetch that needs its extension. -/
theorem witness_ExtensionReadForTwoOpcodesOnly : ¬ longAt (bedAt par 0xFFE#32 [0xFF#8, 0#8]) ∧
    (fetch (bedAt par 0xFFE#32 [0xFF#8, 0#8])).toOption.isSome = true ∧
    Memory.byte (Memory.load [] 0xFFE [0xFF#8, 0#8, 9#8]) 0xFFE = 0xFF#8 ∧ Memory.byte (Memory.load [] 0xFFE [0xFF#8, 0#8, 9#8]) 0xFFF = 0#8 ∧
    (fetch (bedAt par 0xFFA#32 [0xB0#8, 0#8])).toOption.isSome = true ∧ (fetch (bedAt par 0xFFC#32 [0xB0#8, 0#8])).toOption.isSome = false := by decide

/-- Out of range, odd, and an extension out of range. -/
theorem witness_FetchFaultLeavesPcAndState : ¬ codeReadable (bedAt par 0x1000#32 []) ∧ ¬ codeReadable (bedAt par 0x101#32 []) ∧
    ¬ codeReadable (bedAt par 0xFFC#32 [0#8, 0#8]) ∧ (bedAt par 0xFFC#32 [0#8, 0#8]).status = .running := by decide

/-- The PC past 2^32. -/
theorem witness_PcAdvancesForEveryInstruction :
    (fetch (bedAt { par with memSize := 4294967296 } 0xFFFFFFFE#32 [0xFF#8, 0#8])).toOption.isSome = true ∧
    codeReadable (bedAt { par with memSize := 4294967296 } 0xFFFFFFFE#32 [0xFF#8, 0#8]) ∧
    ∃ t, step (bedAt { par with memSize := 4294967296 } 0xFFFFFFFE#32 [0xFF#8, 0#8]) = .next t ∧ t.pc = 0#32 :=
  ⟨by decide, by decide, exists_next (by decide)⟩

theorem witness_ExecuteKeepsPcAndLatches : ∃ t, exec (.add 1#4 2#4) (bed12 1 2 []) = .next t ∧ t.regs[2] = 3#32 := exists_next (by decide)

theorem witness_FetchRunsOffTheEndOfMemory : (bedAt par 0xFFE#32 [0xFF#8, 0#8]).params.memSize < 4294967296 ∧
    codeReadable (bedAt par 0xFFE#32 [0xFF#8, 0#8]) ∧ (bedAt par 0xFFE#32 [0xFF#8, 0#8]).pc.toNat + codeLength (bedAt par 0xFFE#32 [0xFF#8, 0#8]) = 0x1000 ∧
    ∃ t, step (bedAt par 0xFFE#32 [0xFF#8, 0#8]) = .next t ∧ t.status = .running :=
  ⟨by decide, by decide, by decide, exists_next (by decide)⟩

/-- The last register and the first field above the registers. -/
theorem witness_LoadImmediateResult : (bed12 0 0 []).status = .running ∧ (7#4).toNat < 8 ∧ 8 ≤ (8#4).toNat ∧
    after (exec (.ldImm 7#4 0xFF#8 0x80000000#32) (bed12 0 0 [])) (fun t => t.regs[7]) = some 0x80000000#32 := by decide

/-- Each clause: a base field above 7; the last valid word, with a destination of 7 and of 8; the first word past it; a
misaligned word. -/
theorem witness_LoadOffsetResult : 8 ≤ (8#4).toNat ∧ validData par (BitVec.ofNat 32 (0xFFC + 4 * (0#4).toNat)) ∧
    ¬ validData par (BitVec.ofNat 32 (0xFFC + 4 * (1#4).toNat)) ∧ ¬ validData par (BitVec.ofNat 32 (0x202 + 4 * (0#4).toNat)) ∧
    (bedM par []).regs[5] = 0xFFC#32 ∧ after (exec (.ldOff 0#4 5#4 7#4) (bedM par [])) (fun t => (t.regs[7], t.status)) = some (0x01020304#32, .running) ∧
    after (exec (.ldOff 0#4 5#4 8#4) (bedM par [])) (fun t => t.status) = some (.faulted .registerRangeError) ∧
    after (exec (.ldOff 1#4 5#4 8#4) (bedM par [])) (fun t => t.status) = some (.faulted .addressError) := by decide

theorem witness_LoadIndexedResult : validData par (BitVec.ofNat 32 (0xFFC + 4 * 0xFFFFFFFF)) ∧ ¬ validData par (BitVec.ofNat 32 (0xFFC + 4 * 2)) ∧
    after (exec (.ldIdx 0#4 3#4 7#4) (bedM par [])) (fun t => (t.regs[7], t.status)) = some (0#32, .running) ∧
    after (exec (.ldIdx 0#4 3#4 8#4) (bedM par [])) (fun t => t.status) = some (.faulted .registerRangeError) ∧
    after (exec (.ldIdx 8#4 3#4 0#4) (bedM par [])) (fun t => t.status) = some (.faulted .registerRangeError) ∧
    after (exec (.ldIdx 5#4 2#4 7#4) (bedM par [])) (fun t => t.status) = some (.faulted .addressError) := by decide

theorem witness_StoreOffsetResult : validData par (BitVec.ofNat 32 (0xFFC + 4 * (0#4).toNat)) ∧ ¬ validData par (BitVec.ofNat 32 (0xFFC + 4 * (1#4).toNat)) ∧
    after (exec (.stOff 6#4 0#4 5#4) (bedM par [])) (stored (bedM par []) 0xFFC) = some ([0xDE#8, 0xAD#8, 0xBE#8, 0xEF#8], .running, true) ∧
    after (exec (.stOff 8#4 1#4 5#4) (bedM par [])) (fun t => t.status) = some (.faulted .registerRangeError) ∧
    after (exec (.stOff 6#4 1#4 5#4) (bedM par [])) (fun t => t.status) = some (.faulted .addressError) := by decide

theorem witness_StoreIndexedResult : validData par (BitVec.ofNat 32 (0xFFC + 4 * 0xFFFFFFFF)) ∧ ¬ validData par (BitVec.ofNat 32 (0xFFC + 4 * 2)) ∧
    after (exec (.stIdx 6#4 5#4 3#4) (bedM par [])) (stored (bedM par []) 0xFF8) = some ([0xDE#8, 0xAD#8, 0xBE#8, 0xEF#8], .running, true) ∧
    after (exec (.stIdx 8#4 5#4 2#4) (bedM par [])) (fun t => t.status) = some (.faulted .registerRangeError) ∧
    after (exec (.stIdx 6#4 5#4 2#4) (bedM par [])) (fun t => t.status) = some (.faulted .addressError) := by decide

/-- Fields of 0, 7 (in range) and 8, 15 (out of range). -/
theorem witness_TwoRegisterAluResults : (bed12 1 2 []).status = .running ∧
    after (exec (.mov 7#4 0#4) ((bed12 1 2 []).setReg 7 5#32 (by decide))) (fun t => t.regs[0]) = some 5#32 ∧
    after (exec (.add 1#4 2#4) (bed12 0xFFFFFFFF 1 [])) (fun t => t.regs[2]) = some 0#32 ∧
    after (exec (.and 1#4 2#4) (bed12 6 3 [])) (fun t => t.regs[2]) = some 2#32 ∧
    after (exec (.mov 8#4 0#4) (bed12 1 2 [])) (fun t => t.status) = some (.faulted .registerRangeError) ∧
    after (exec (.add 1#4 15#4) (bed12 1 2 [])) (fun t => t.status) = some (.faulted .registerRangeError) := by decide

/-- Values at the wrap of each of the five. -/
theorem witness_OneRegisterAluResults : (bed12 0 0 []).status = .running ∧
    after (exec (.inc 15#4 2#4) (bed12 0 0xFFFFFFFF [])) (fun t => t.regs[2]) = some 0#32 ∧
    after (exec (.inca 15#4 2#4) (bed12 0 0xFFFFFFFC [])) (fun t => t.regs[2]) = some 0#32 ∧
    after (exec (.dec 15#4 2#4) (bed12 0 0x80000000 [])) (fun t => t.regs[2]) = some 0x7FFFFFFF#32 ∧
    after (exec (.deca 15#4 2#4) (bed12 0 0 [])) (fun t => t.regs[2]) = some 0xFFFFFFFC#32 ∧
    after (exec (.not 15#4 2#4) (bed12 0 0 [])) (fun t => t.regs[2]) = some 0xFFFFFFFF#32 ∧
    after (exec (.not 15#4 8#4) (bed12 0 0 [])) (fun t => t.status) = some (.faulted .registerRangeError) := by decide

theorem witness_NotThenIncNegates : (7#4).toNat < 8 ∧ (bed12 0 0x80000000 []).status = .running ∧
    BitVec.ofInt 32 (- (bed12 0 0x80000000 []).regs[2].toInt) = 0x80000000#32 := by decide

/-- The counts 31, 1, 0 and -31, and a field above 7. -/
theorem witness_ShiftWithinWordResult : 0 < (0x1F#8).toInt ∧ (0x1F#8).toInt ≤ 31 ∧ 0 < (1#8).toInt ∧ (0#8).toInt ≤ 0 ∧ -31 ≤ (0xE1#8).toInt ∧
    (0xE1#8).toInt ≤ 0 ∧ (7#4).toNat < 8 ∧ 8 ≤ (8#4).toNat ∧
    after (exec (.shift 2#4 0xE1#8) (bed12 0 0x80000000 [])) (fun t => t.regs[2]) = some 0xFFFFFFFF#32 := by decide

/-- The counts 32, 127, -32 and -128, under each SHIFT_RULE. -/
theorem witness_ShiftBeyondWordResult : 32 ≤ (0x20#8).toInt ∧ 32 ≤ (0x7F#8).toInt ∧ (0xE0#8).toInt ≤ -32 ∧ (0x80#8).toInt ≤ -32 ∧ (7#4).toNat < 8 ∧
    [ShiftRule.mod32, .saturate, .refuse].map (fun r => (bed { par with shiftRule := r } zeros []).params.shiftRule) = [.mod32, .saturate, .refuse] ∧
    after (exec (.shift 2#4 0x7F#8) (bed12 0 1 [])) (fun t => t.regs[2]) = some 0x80000000#32 := by decide

theorem witness_HaltCycle : (bedAt par 0xFFE#32 [0xF0#8, 0xFF#8]).status = .running ∧ validHeader par 0xFFE#32 ∧
    byte0At (bedAt par 0xFFE#32 [0xF0#8, 0xFF#8]) = 0xF0#8 := by decide

/-- Both ends of the range of byte0. -/
theorem witness_NoOpCycle : validHeader par 0x100#32 ∧ 0xF1 ≤ (byte0At (bed12 0 0 [0xF1#8, 0#8])).toNat ∧
    0xF1 ≤ (byte0At (bed12 0 0 [0xFF#8, 0#8])).toNat ∧ (bed12 0 0 [0xFF#8, 0#8]).status = .running := by decide

/-- Both ends of each range of byte0, and the last header of memory. -/
theorem witness_ReservedEncodingCycle : [0x50#8, 0x5F#8, 0x68#8, 0x6F#8, 0x80#8, 0xAF#8, 0xC0#8, 0xEF#8].all (fun b =>
      decide (reservedByte0 (byte0At (bed12 0 0 [b, 0xFF#8])) ∧ (byte0At (bed12 0 0 [b, 0xFF#8])).toNat / 16 ≠ 11)) = true ∧
    [0x4F#8, 0x67#8, 0x7F#8, 0xF0#8].all (fun b => decide (¬ reservedByte0 b)) = true ∧ validHeader par 0xFFE#32 := by decide

/-- The last valid extension and the first invalid one. -/
theorem witness_OpcodeBCycle : (byte0At (bedAt par 0xFFA#32 [0xB0#8, 0#8])).toNat / 16 = 11 ∧ validHeader par 0xFFA#32 ∧ validHeader par 0xFFC#32 ∧
    validExtension par (0xFFA#32 + 2#32) ∧ ¬ validExtension par (0xFFC#32 + 2#32) ∧ (byte0At (bedAt par 0xFFC#32 [0xBF#8, 0#8])).toNat / 16 = 11 := by decide

theorem witness_HaltSignalFromHaltOnly : (∃ t, step (bed12 0 0 [0xF0#8, 0#8]) = .next t ∧ t.status = .halted) ∧
    ∃ t, step (bed12 0 0 [0xF1#8, 0#8]) = .next t ∧ t.status = .running := ⟨exists_next (by decide), exists_next (by decide)⟩

theorem witness_DecodeErrorExactlyOnReserved : (∃ t, step (bed12 0 0 [0x68#8, 0#8]) = .next t ∧ t.status = .faulted .decodeError) ∧
    ∃ t, step (bed12 0 0 [0x67#8, 0#8]) = .next t ∧ t.status = .running := ⟨exists_next (by decide), exists_next (by decide)⟩

/-- An invalid header, an invalid extension, an invalid load and an invalid store. -/
theorem witness_AddressErrorPoints :
    (∃ t, step (bedAt par 0x1000#32 []) = .next t ∧ t.status = .faulted .addressError) ∧
    (∃ t, step (bedAt par 0xFFC#32 [0#8, 0#8]) = .next t ∧ t.status = .faulted .addressError) ∧
    (∃ t, step (bedM par [0x11#8, 0x56#8]) = .next t ∧ t.status = .faulted .addressError) ∧
    (Instr.ldOff 1#4 5#4 7#4).loadAddress (bedM par []) = some 0x1000#32 ∧ ¬ validData par 0x1000#32 ∧
    (Instr.stIdx 6#4 5#4 2#4).storeAddress (bedM par []) = some (0x1004#32, 6#4) ∧ ¬ validData par 0x1004#32 ∧
    (∀ f ∈ (Instr.ldOff 1#4 5#4 7#4).usedFields, f.toNat < 8) ∧ ∀ f ∈ (Instr.stIdx 6#4 5#4 2#4).usedFields, f.toNat < 8 :=
  ⟨exists_next (by decide), exists_next (by decide), exists_next (by decide), by decide, by decide, by decide, by decide, by decide, by decide⟩

/-- A source, a destination, an address and a value field above 7; and X2, where the address is reported. -/
theorem witness_RegisterRangeErrorFields :
    (∃ t, step (bed12 1 2 [0x61#8, 0x9A#8]) = .next t ∧ t.status = .faulted .registerRangeError) ∧
    (8#4 ∈ (Instr.mov 8#4 0#4).usedFields) ∧ (8#4 ∈ (Instr.ldImm 8#4 0#8 0#32).usedFields) ∧ (8#4 ∈ (Instr.ldIdx 0#4 8#4 0#4).usedFields) ∧
    (15#4 ∈ (Instr.stOff 15#4 0#4 0#4).usedFields) ∧ 8 ≤ (8#4).toNat ∧
    ∃ t, exec (.ldOff 0#4 0#4 9#4) (bedX []) = .next t ∧ t.status = .faulted .addressError :=
  ⟨exists_next (by decide), by decide, by decide, by decide, by decide, by decide, exists_next (by decide)⟩

theorem witness_RaiseChangesOnlyStatus : (∃ t, exec (.mov 8#4 0#4) (bed12 1 2 []) = .next t ∧ t.status = .faulted .registerRangeError) ∧
    fetch (bedAt par 0x1000#32 []) = .error (.raise .addressError) ∧ ∃ t, step (bedAt par 0x1000#32 []) = .next t ∧ t.pc = 0x1000#32 :=
  ⟨exists_next (by decide), rfl, exists_next (by decide)⟩

theorem witness_TerminalStatesHaveNoCycle : ((bed12 0 0 []).setStatus .halted).status = .halted ∧
    ((bed12 0 0 []).raise .decodeError).status = .faulted .decodeError ∧
    refusal (step ((bed12 0 0 []).setStatus .halted)) = some .cycleAfterHalt := by decide

/-- A cycle under each rule, and the refused one: a shift by 32 under refuse. -/
theorem witness_EveryCycleCompletes : (bed12 0 0 [0x72#8, 0x20#8]).status = .running ∧ (bed12 0 0 [0x72#8, 0x20#8]).params.shiftRule ≠ .refuse ∧
    refusal (step (bed { par with shiftRule := .refuse } zeros (Memory.load [] 0x100 [0x72#8, 0x20#8]))) = some .shiftCountRefused ∧
    32 ≤ (0x20#8).toInt.natAbs := by decide

theorem witness_StraightLineRunEnds : (bed12 0 0 []).status = .running ∧ (bed12 0 0 []).params.memSize < 4294967296 ∧
    (bed12 0 0 []).params.shiftRule ≠ .refuse := by decide

/-- Registers an instruction does not read, changed; a register it does not write. -/
theorem witness_RegisterAccessTable : (∃ t, exec (.add 1#4 2#4) (bed12 1 2 []) = .next t ∧ t.status = .running) ∧
    (∀ f ∈ (Instr.add 1#4 2#4).readFields, ∀ h : f.toNat < 8, ((bed12 1 2 []).regs.set 0 9#32)[f.toNat] = (bed12 1 2 []).regs[f.toNat]) ∧
    (∀ f, (Instr.add 1#4 2#4).written = some f → f.toNat ≠ 7) ∧ (fetch (bed12 1 2 [])).toOption.isSome = true :=
  ⟨exists_next (by decide), by decide, by simp [Instr.written], by decide⟩

theorem witness_RegisterWriterFrame : (Instr.add 1#4 2#4).written = some 2#4 ∧
    ∃ t, exec (.add 1#4 2#4) (bed12 1 2 []) = .next t ∧ t.status = .running := ⟨rfl, exists_next (by decide)⟩

/-- A store that completes at the last word, and one that faults. -/
theorem witness_StoreFrame : (Instr.stOff 6#4 0#4 5#4).storeAddress (bedM par []) = some (0xFFC#32, 6#4) ∧
    (∃ t, exec (.stOff 6#4 0#4 5#4) (bedM par []) = .next t ∧ t.status = .running) ∧
    (Instr.stOff 6#4 1#4 5#4).storeAddress (bedM par []) = some (0x1000#32, 6#4) ∧
    ∃ t, exec (.stOff 6#4 1#4 5#4) (bedM par []) = .next t ∧ t.status ≠ .running :=
  ⟨by decide, exists_next (by decide), by decide,
    (exists_next (f := fun t => t.status) (v := Status.faulted .addressError) (by decide)).imp fun _ h => ⟨h.1, by simp [h.2]⟩⟩

theorem witness_ExecuteWritesAtMostOnePlace : (∃ t, exec (.nop 0#8) (bed12 1 2 []) = .next t ∧ t.status = .running) ∧
    (∃ t, exec (.dec 0#4 1#4) (bed12 1 2 []) = .next t ∧ t.regs[1] = 0#32) ∧
    ∃ t, exec (.stOff 6#4 0#4 5#4) (bedM par []) = .next t ∧ t.mem.byte 0xFFC = 0xDE#8 :=
  ⟨exists_next (by decide), exists_next (by decide), exists_next (by decide)⟩

/-- A write and an unaligned read that both succeed, and both lengths of fetch. -/
theorem witness_MemoryIsBigEndian : (mpWriteWord 0xFFC#32 1#32 (bedM par [])).toOption.isSome = true ∧
    (mpReadWord .data 0x201#32 (bedM { par with dataAlign4 := false } [])).toOption = some 0x22334455#32 ∧
    (fetch (bed12 0 0 [0xFF#8, 0#8])).toOption.isSome = true ∧ ¬ longAt (bed12 0 0 [0xFF#8, 0#8]) ∧
    (fetch (bed12 0 0 [0#8, 0#8, 0#8, 0#8, 0#8, 1#8])).toOption.isSome = true ∧ longAt (bed12 0 0 [0#8, 0#8, 0#8, 0#8, 0#8, 1#8]) := by decide

/-- S11 with numbers: both forms of the store, and a load by the other form. -/
theorem witness_StoreThenLoadReturnsValue : (Instr.stOff 6#4 2#4 0#4).storeAddress (bedM par []) = some (0x208#32, 6#4) ∧ (6#4).toNat < 8 ∧
    ∃ t, exec (.stOff 6#4 2#4 0#4) (bedM par []) = .next t ∧
      (t.status, (Instr.ldIdx 0#4 2#4 3#4).loadAddress t, (Instr.ldIdx 0#4 2#4 3#4).written) = (.running, some 0x208#32, some 3#4) :=
  ⟨by decide, by decide, exists_next (by decide)⟩

/-- P3: a halt stored where the PC stands. -/
theorem witness_StoreIsSeenByNextFetch :
    (Instr.stOff 1#4 0#4 0#4).storeAddress (bed par ((zeros.set 0 0x100#32).set 1 0xF000FF00#32) []) = some (0x100#32, 1#4) ∧
    decode (bytesOfWord 0xF000FF00#32) = .ok (.halt 0#8, [0xFF#8, 0#8]) ∧ validHeader par 0x100#32 ∧
    ∃ t, exec (.stOff 1#4 0#4 0#4) (bed par ((zeros.set 0 0x100#32).set 1 0xF000FF00#32) []) = .next t ∧ t.status = .running :=
  ⟨by decide, rfl, by decide, exists_next (by decide)⟩

theorem witness_CanonicalMemoriesAreExtensional : Memory.wf (Memory.load [] 4 [1#8, 0#8, 3#8]) ∧
    Memory.wf (Memory.setByte (Memory.load [] 4 [1#8, 2#8, 3#8]) 5 0#8) ∧
    ∀ a, Memory.byte (Memory.load [] 4 [1#8, 0#8, 3#8]) a = Memory.byte (Memory.setByte (Memory.load [] 4 [1#8, 2#8, 3#8]) 5 0#8) a :=
  ⟨by decide, by decide, fun _ => rfl⟩

/-- The smallest and the largest legal MEM_SIZE. -/
theorem witness_ResetMeetsInvariant : Params.legal { par with memSize := 6 } ∧ Params.legal { par with memSize := 4294967296 } ∧
    Memory.wf [(5, 1#8)] ∧ (∀ c ∈ ([(5, 1#8)] : Memory), c.1 < 6) := by decide

theorem witness_StepKeepsInvariant : (bed { par with memSize := 6, resetPc := 0#32 } zeros [(0, 0x60#8)]).Inv ∧
    ∃ t, step (bed { par with memSize := 6, resetPc := 0#32 } zeros [(0, 0x60#8)]) = .next t ∧ t.pc = 2#32 :=
  ⟨⟨by decide, by decide, by decide⟩, exists_next (by decide)⟩

theorem witness_StepKeepsParameters : ∃ t, step (bed12 0 0 []) = .next t ∧ t.params = par := exists_next (by decide)

/-- An odd PC, which FETCH_ALIGN2 = false allows. -/
theorem witness_PcKeepsParity : ∃ t, step (bedAt { par with fetchAlign2 := false } 0x101#32 [0xFF#8, 0#8]) = .next t ∧ t.pc = 0x103#32 :=
  exists_next (by decide)

theorem witness_StaleLatchesNeverMatter : (∃ t, step (bed12 1 2 [0x61#8, 0x12#8]) = .next t ∧ t.regs[2] = 3#32) ∧
    codeReadable (bed12 1 2 [0x61#8, 0x12#8]) ∧ refusal (step ((bed12 0 0 []).setStatus .halted)) = some .cycleAfterHalt :=
  ⟨exists_next (by decide), by decide, by decide⟩

end Sys2Proof.Tests
end

section
/-! PROOFS. The statements of 10_state.md: what the execute phase reads and leaves, memory as a map, the parameters, the
latches and reset. -/

namespace Sys2Proof.Machine

/-! ### Memory is a map from addresses to bytes -/

/-- A memory in the canonical form lists exactly the bytes that differ from the unlisted one, so its reads determine its
cells (10_state.md R21). -/
theorem Memory.mem_iff_byte {m : Memory} (h : m.wf) (c : Host.Cell) :
    c ∈ m ↔ m.byte c.1 = c.2 ∧ c.2 ≠ unlistedByte := by
  obtain ⟨hsorted, hlisted⟩ := h
  induction m with
  | nil => simp [eq_comm]
  | cons d rest ih =>
    obtain ⟨hd, hrest⟩ := List.pairwise_cons.1 hsorted
    rw [List.mem_cons, Memory.byte_cons, ih hrest fun c hc => hlisted c (by simp [hc])]
    split
    next hdc =>
      have hunlisted : Memory.byte rest c.1 = unlistedByte :=
        Memory.byte_unlisted fun e he => by have := hd e he; omega
      have hne : d.2 ≠ unlistedByte := hlisted d (by simp)
      constructor
      · rintro (rfl | ⟨hb, hc⟩)
        · exact ⟨rfl, hne⟩
        · exact absurd (hb.symm.trans hunlisted) hc
      · rintro ⟨hv, -⟩
        exact .inl (Prod.ext hdc.symm hv.symm)
    next hdc => simp [show c ≠ d from fun h => hdc (h ▸ rfl)]

/-- Settles O42: two canonical memories that read alike list the same cells in the same rising order. -/
theorem canonicalMemoriesAreExtensional : Obligations.CanonicalMemoriesAreExtensional := by
  intro m m' hm hm' hbyte
  have : Std.Antisymm fun c d : Host.Cell => c.1 < d.1 := ⟨fun _ _ h h' => absurd h (Nat.lt_asymm h')⟩
  have : Std.Irrefl fun c d : Host.Cell => c.1 < d.1 := ⟨fun _ => Nat.lt_irrefl _⟩
  exact hm.1.eq_of_mem_iff hm'.1 fun c => by
    rw [Memory.mem_iff_byte hm, Memory.mem_iff_byte hm', hbyte]

/-! ### What an execute phase leaves unchanged -/

section Frame
variable {i : Instr} {s t : State}

/-- The execute phase writes neither the PC, nor the latches, nor the parameters, nor the count (41_decode_dispatch.md R87,
10_state.md R22). -/
theorem exec_keeps_control (h : exec i s = .next t) :
    t.pc = s.pc ∧ t.ir = s.ir ∧ t.params = s.params ∧ t.freeCount = s.freeCount := by
  obtain ⟨r, rfl⟩ | ⟨f, hf, v, -, rfl⟩ | ⟨a, f, hf, -, -, rfl⟩ | ⟨-, rfl | ⟨-, rfl⟩⟩ := exec_next_cases h <;> simp

/-- The execute phase writes no register but the one of the table (10_state.md R12). -/
theorem exec_keeps_unwritten (h : exec i s = .next t) {k : Nat} (hk : k < 8)
    (hw : ∀ f, i.written = some f → f.toNat ≠ k) : t.regs[k] = s.regs[k] := by
  obtain ⟨r, rfl⟩ | ⟨f, hf, v, hwf, rfl⟩ | ⟨a, f, hf, -, -, rfl⟩ | ⟨-, rfl | ⟨-, rfl⟩⟩ := exec_next_cases h
  case inr.inl => exact Vector.getElem_set_ne hf hk (hw f hwf)
  all_goals rfl

/-- A cycle writes no parameter: the fetch phase writes latches and PC, the execute phase keeps them. -/
theorem step_params (h : step s = .next t) : t.params = s.params := by
  obtain ⟨-, ⟨-, rfl⟩ | ⟨s', hf, he⟩⟩ := step_next_cases h
  · simp
  · obtain ⟨ir, -, rfl⟩ := fetch_eq_ok.1 hf
    obtain ⟨-, -, hp, -⟩ := exec_keeps_control he
    simpa using hp

end Frame

/-- Settles O45, by what each phase of a cycle keeps. -/
theorem stepKeepsParameters : Obligations.StepKeepsParameters :=
  fun _ _ h => step_params h

/-! ### What an execute phase does not read -/

/-- The meaning of an instruction without the frame that every execute phase shares (`exec_eq_execute_execBody`). -/
def execBody : Instr → State → Except Stop State
  | .ldImm rd _ value => rfSet rd value
  | .ldOff offset base rd => loadWord (eaOffset base offset) rd
  | .ldIdx base index rd => loadWord (eaIndexed base index) rd
  | .stOff rs offset base => storeWord (eaOffset base offset) rs
  | .stIdx rs base index => storeWord (eaIndexed base index) rs
  | .mov rs rd => aluMove rs rd
  | .add rs rd => aluBinary (fun a b => a + b) rs rd
  | .and rs rd => aluBinary (fun a b => a &&& b) rs rd
  | .inc _ rd => aluUnary (fun b => b + 1#32) rd
  | .inca _ rd => aluUnary (fun b => b + 4#32) rd
  | .dec _ rd => aluUnary (fun b => b - 1#32) rd
  | .deca _ rd => aluUnary (fun b => b - 4#32) rd
  | .not _ rd => aluUnary (fun b => ~~~b) rd
  | .shift rd amount => shiftRegister rd amount
  | .halt _ => fun s => .ok s.signalHalt
  | .nop _ | .nopU _ _ => fun s => .ok s
  | .reserved5 _ _ | .reserved8 _ _ | .reserved9 _ _ | .reservedA _ _ | .reservedC _ _ | .reservedD _ _
  | .reservedE _ _ | .reservedB _ _ _ | .reservedAlu _ _ => raiseDecodeError

theorem exec_eq_execute_execBody (i : Instr) (s : State) : exec i s = execute (execBody i) s := by
  cases i <;> rfl

/-- Other values for what an execute phase does not read: the PC, the latches, the count of free values, and the registers
outside `Instr.readFields`. -/
structure Unread where
  regs : Vector Word 8
  pc : Word
  ir : IR
  freeCount : Nat

/-- `s` with the values of `u`. STATUS, memory and the parameters stand. -/
def State.withUnread (s : State) (u : Unread) : State :=
  { s with regs := u.regs, pc := u.pc, ir := u.ir, freeCount := u.freeCount }

section WithUnread
variable (s : State) (u : Unread)

@[simp] theorem State.withUnread_regs : (s.withUnread u).regs = u.regs := rfl
@[simp] theorem State.withUnread_status : (s.withUnread u).status = s.status := rfl
@[simp] theorem State.withUnread_mem : (s.withUnread u).mem = s.mem := rfl
@[simp] theorem State.withUnread_params : (s.withUnread u).params = s.params := rfl
@[simp] theorem State.setMem_withUnread (m : Memory) : (s.withUnread u).setMem m = (s.setMem m).withUnread u := rfl

end WithUnread

/-- The registers `old`, with the one that `w` names taken from `new`. -/
def takeWritten (w : Option RegField) (new old : Vector Word 8) : Vector Word 8 :=
  Vector.ofFn fun k => if ∃ f, w = some f ∧ f.toNat = k.val then new[k] else old[k]

/-- What a body that wrote the register `w` and left `t` leaves when it begins with the values of `u`. -/
def State.carry (w : Option RegField) (u : Unread) (t : State) : State :=
  t.withUnread { u with regs := takeWritten w t.regs u.regs }

section TakeWritten
variable {w : Option RegField} {new old : Vector Word 8} {k : Nat} (hk : k < 8)

theorem getElem_takeWritten :
    (takeWritten w new old)[k] = if ∃ f, w = some f ∧ f.toNat = k then new[k] else old[k] := by
  simp [takeWritten]

@[simp] theorem takeWritten_none : takeWritten none new old = old :=
  Vector.ext fun k hk => by simp [getElem_takeWritten]

theorem takeWritten_set {f : RegField} (hf : f.toNat < 8) (v : Word) :
    takeWritten (some f) (new.set f.toNat v) old = old.set f.toNat v :=
  Vector.ext fun k hk => by
    by_cases h : f.toNat = k <;> simp [getElem_takeWritten, h]

/-- Nothing is carried over between registers that differ in the written one only. -/
theorem takeWritten_eq_new (h : ∀ (k : Nat) (hk : k < 8), (∀ f, w = some f → f.toNat ≠ k) → new[k] = old[k]) :
    takeWritten w new old = new :=
  Vector.ext fun k hk => by
    rw [getElem_takeWritten]
    split
    next => rfl
    next hw => exact (h k hk fun f hf hk => hw ⟨f, hf, hk⟩).symm

end TakeWritten

theorem except_map_bind {ε α β γ : Type} (g : β → γ) (x : Except ε α) (f : α → Except ε β) :
    (x >>= f).map g = x >>= fun a => (f a).map g := by
  cases x <;> rfl

section Bodies
variable {s : State} {u : Unread} {f base index rs rd : RegField}

/-- `u` and `s` hold the same value in the register that `f` names; nothing is asked of a field above 7. -/
abbrev agreesOn (u : Unread) (s : State) (f : RegField) : Prop := ∀ h : f.toNat < 8, u.regs[f.toNat] = s.regs[f.toNat]

theorem rfGet_withUnread (h : agreesOn u s f) : rfGet f (s.withUnread u) = rfGet f s := by
  obtain ⟨hf, hs⟩ | ⟨hf, hs⟩ := rfGet_cases f s
  · rw [hs, rfGet_ok hf]; exact congrArg _ (h hf)
  · rw [hs, rfGet_error hf]

theorem rfSet_withUnread (v : Word) : rfSet f v (s.withUnread u) = (rfSet f v s).map (State.carry (some f) u) := by
  by_cases hf : f.toNat < 8
  · rw [rfSet_ok hf, rfSet_ok hf, Except.map, State.carry, State.setReg_regs, takeWritten_set]; rfl
  · rw [rfSet_error (Nat.not_lt.1 hf), rfSet_error (Nat.not_lt.1 hf)]; rfl

theorem mpReadWord_withUnread (k : AccessKind) (a : Word) : mpReadWord k a (s.withUnread u) = mpReadWord k a s := rfl

theorem carry_none (t : State) : State.carry none u t = t.withUnread u := by simp [State.carry]

theorem mpWriteWord_withUnread (a v : Word) :
    mpWriteWord a v (s.withUnread u) = (mpWriteWord a v s).map (State.carry none u) := by
  by_cases hv : valid s.params a 4 .data = true
  · simp [mpWriteWord, hv, Except.map, carry_none]
  · simp [mpWriteWord, hv, Except.map]

theorem eaOffset_withUnread (hb : agreesOn u s base) (offset : Nibble) :
    eaOffset base offset (s.withUnread u) = eaOffset base offset s := by
  simp only [eaOffset, rfGet_withUnread hb]

theorem eaIndexed_withUnread (hb : agreesOn u s base) (hi : agreesOn u s index) :
    eaIndexed base index (s.withUnread u) = eaIndexed base index s := by
  simp only [eaIndexed, rfGet_withUnread hb, rfGet_withUnread hi]

theorem loadWord_withUnread {ea : State → Except Stop Word} (hea : ea (s.withUnread u) = ea s) :
    loadWord ea rd (s.withUnread u) = (loadWord ea rd s).map (State.carry (some rd) u) := by
  simp only [loadWord, except_map_bind, hea, mpReadWord_withUnread, rfSet_withUnread]

theorem storeWord_withUnread {ea : State → Except Stop Word} (hea : ea (s.withUnread u) = ea s) (hr : agreesOn u s rs) :
    storeWord ea rs (s.withUnread u) = (storeWord ea rs s).map (State.carry none u) := by
  simp only [storeWord, except_map_bind, hea, rfGet_withUnread hr, mpWriteWord_withUnread]

theorem aluMove_withUnread (hr : agreesOn u s rs) :
    aluMove rs rd (s.withUnread u) = (aluMove rs rd s).map (State.carry (some rd) u) := by
  simp only [aluMove, except_map_bind, rfGet_withUnread hr, rfSet_withUnread]

theorem aluBinary_withUnread (op : Word → Word → Word) (hr : agreesOn u s rs) (hd : agreesOn u s rd) :
    aluBinary op rs rd (s.withUnread u) = (aluBinary op rs rd s).map (State.carry (some rd) u) := by
  simp only [aluBinary, except_map_bind, rfGet_withUnread hr, rfGet_withUnread hd, rfSet_withUnread]

theorem aluUnary_withUnread (op : Word → Word) (hd : agreesOn u s rd) :
    aluUnary op rd (s.withUnread u) = (aluUnary op rd s).map (State.carry (some rd) u) := by
  simp only [aluUnary, except_map_bind, rfGet_withUnread hd, rfSet_withUnread]

theorem shiftRegister_withUnread (amount : BitVec 8) (hd : agreesOn u s rd) :
    shiftRegister rd amount (s.withUnread u) = (shiftRegister rd amount s).map (State.carry (some rd) u) := by
  simp only [shiftRegister, except_map_bind, rfGet_withUnread hd]
  congr 1
  funext v
  rw [State.withUnread_params]
  cases shiftResult s.params.shiftRule amount v with
  | some r => exact rfSet_withUnread r
  | none => rfl

/-- R12 for the body of every instruction: begun with other values in what it does not read, it stops for the same reason,
or leaves those values with the one register it writes put over them. -/
theorem execBody_withUnread {i : Instr} (h : ∀ f ∈ i.readFields, agreesOn u s f) :
    execBody i (s.withUnread u) = (execBody i s).map (State.carry i.written u) := by
  cases i <;> simp only [Instr.readFields, List.forall_mem_cons, List.not_mem_nil, false_implies, implies_true, and_true] at h
  case ldImm => exact rfSet_withUnread _
  case ldOff => exact loadWord_withUnread (eaOffset_withUnread h _)
  case ldIdx =>
    obtain ⟨hbase, hindex⟩ := h
    exact loadWord_withUnread (eaIndexed_withUnread hbase hindex)
  case stOff =>
    obtain ⟨hbase, hvalue⟩ := h
    exact storeWord_withUnread (eaOffset_withUnread hbase _) hvalue
  case stIdx =>
    obtain ⟨hbase, hindex, hvalue⟩ := h
    exact storeWord_withUnread (eaIndexed_withUnread hbase hindex) hvalue
  case mov => exact aluMove_withUnread h
  case add | and => exact aluBinary_withUnread _ h.1 h.2
  case inc | inca | dec | deca | not => exact aluUnary_withUnread _ h
  case shift => exact shiftRegister_withUnread _ h
  case halt => exact congrArg Except.ok (carry_none s.signalHalt).symm
  case nop | nopU => exact congrArg Except.ok (carry_none s).symm
  all_goals rfl

end Bodies

section Execute
variable {i : Instr} {s t : State} {u : Unread}

/-- R12 for the execute phase: a refusal does not depend on what the instruction does not read. -/
theorem exec_withUnread_refused (hu : ∀ f ∈ i.readFields, agreesOn u s f) {q : Refusal} (h : exec i s = .refused q) :
    exec i (s.withUnread u) = .refused q := by
  rw [exec_eq_execute_execBody] at h ⊢
  obtain ⟨hs, hb⟩ | ⟨hs, rfl⟩ | ⟨r, hs, rfl⟩ := execute_refused_cases h
  · simp [execute, hs, execBody_withUnread hu, hb, Except.map, stopCycle]
  · simp [execute, hs]
  · simp [execute, hs]

/-- R12 for the execute phase: with other values in what the instruction does not read it completes with the same effect, or
takes the same fault in the state it began with. -/
theorem exec_withUnread_next (hu : ∀ f ∈ i.readFields, agreesOn u s f) (h : exec i s = .next t) :
    exec i (s.withUnread u) = .next (t.carry i.written u) ∨
      ∃ r, t = s.raise r ∧ exec i (s.withUnread u) = .next ((s.withUnread u).raise r) := by
  rw [exec_eq_execute_execBody] at h ⊢
  obtain ⟨hs, hb | ⟨r, hb, rfl⟩⟩ := execute_next_cases h
  · exact .inl (execute_ok hs (by rw [execBody_withUnread hu, hb]; rfl))
  · exact .inr ⟨r, rfl, execute_raise hs (by rw [execBody_withUnread hu, hb]; rfl)⟩

/-- The PC, the latches and the count are neither read nor written by an execute phase (41_decode_dispatch.md R87, R88). -/
theorem exec_withControl (h : exec i s = .next t) (pc : Word) (ir : IR) (n : Nat) :
    exec i { s with pc := pc, ir := ir, freeCount := n } = .next { t with pc := pc, ir := ir, freeCount := n } := by
  have hregs : takeWritten i.written t.regs s.regs = t.regs :=
    takeWritten_eq_new fun k hk hw => exec_keeps_unwritten h hk hw
  obtain hu | ⟨r, rfl, hu⟩ :=
    exec_withUnread_next (u := { regs := s.regs, pc := pc, ir := ir, freeCount := n }) (fun _ _ _ => rfl) h
  · rw [State.carry, hregs] at hu; exact hu
  · exact hu

theorem exec_withControl_refused {q : Refusal} (h : exec i s = .refused q) (pc : Word) (ir : IR) (n : Nat) :
    exec i { s with pc := pc, ir := ir, freeCount := n } = .refused q :=
  exec_withUnread_refused (u := { regs := s.regs, pc := pc, ir := ir, freeCount := n }) (fun _ _ _ => rfl) h

/-- Registers that the instruction does not read change neither its outcome, nor memory, nor the value it writes. -/
theorem exec_withRegs {regs : Vector Word 8} (hu : ∀ f ∈ i.readFields, ∀ h : f.toNat < 8, regs[f.toNat] = s.regs[f.toNat])
    (h : exec i s = .next t) :
    ∃ t', exec i { s with regs := regs } = .next t' ∧ t'.status = t.status ∧ t'.mem = t.mem ∧
      (t.status = .running → ∀ f, i.written = some f → ∀ h : f.toNat < 8, t'.regs[f.toNat] = t.regs[f.toNat]) := by
  obtain hu | ⟨r, rfl, hu⟩ :=
    exec_withUnread_next (u := { regs := regs, pc := s.pc, ir := s.ir, freeCount := s.freeCount }) hu h
  · exact ⟨_, hu, rfl, rfl, fun _ f hf hlt => by simp [State.carry, getElem_takeWritten, hf]⟩
  · exact ⟨_, hu, rfl, rfl, fun hr => by simp at hr⟩

end Execute

/-- The fetch neither reads nor writes a register. -/
theorem fetch_withRegs {s t : State} (regs : Vector Word 8) (h : fetch s = .ok t) :
    t.regs = s.regs ∧ fetch { s with regs := regs } = .ok { t with regs := regs } := by
  obtain ⟨ir, hir, rfl⟩ := fetch_eq_ok.1 h
  exact ⟨rfl, fetch_eq_ok.2 ⟨ir, hir, rfl⟩⟩

/-- Settles O35: the frame of the written register, the execute phase with other unread registers, the fetch, and the
execute phase with another PC. -/
theorem registerAccessTable : Obligations.RegisterAccessTable :=
  ⟨fun _ _ _ h _ hk hw => exec_keeps_unwritten h hk hw,
   fun _ _ _ _ hu h => exec_withRegs hu h,
   fun _ _ regs h => fetch_withRegs regs h,
   fun _ _ t p h => by
    obtain ⟨hpc, hir, -, hn⟩ := exec_keeps_control h
    exact ⟨hpc, by simpa only [← hir, ← hn] using exec_withControl h p t.ir t.freeCount⟩⟩

/-! ### Latches that an earlier cycle left -/

/-- A cycle is refused only by its execute phase, or because the run is over (60_exceptions.md R139): a failed fetch is a
fault, not a refusal. -/
theorem step_refused_cases {s : State} {q : Refusal} (h : step s = .refused q) :
    s.status = .running ∧ codeReadable s ∧ exec (decodeIR (codeLatches s)) (fetched s) = .refused q ∨
      s.status = .halted ∧ q = .cycleAfterHalt ∨ ∃ r, s.status = .faulted r ∧ q = .cycleAfterFault r := by
  cases hs : s.status with
  | running =>
    by_cases hc : codeReadable s
    · exact .inl ⟨rfl, hc, step_of_readable hs hc ▸ h⟩
    · rw [step_of_not_readable hs hc] at h
      cases h
  | halted => simp only [step, hs] at h; cases h; exact .inr (.inl ⟨rfl, rfl⟩)
  | faulted r => simp only [step, hs] at h; cases h; exact .inr (.inr ⟨r, rfl, rfl⟩)

section StaleLatches
variable {s t : State} (ir : IR) (n : Nat)

theorem step_staleLatches_of_readable (hr : s.status = .running) (hc : codeReadable s) :
    step { s with ir := ir, freeCount := n } = exec (decodeIR (codeLatches s)) { fetched s with freeCount := n } :=
  step_of_readable (s := { s with ir := ir, freeCount := n }) hr hc

theorem step_staleLatches_of_not_readable (hr : s.status = .running) (hc : ¬ codeReadable s) :
    step { s with ir := ir, freeCount := n } =
      .next ((fetchFailed { s with ir := ir, freeCount := n }).raise .addressError) :=
  step_of_not_readable (s := { s with ir := ir, freeCount := n }) hr hc

theorem step_staleLatches_refused {q : Refusal} (h : step s = .refused q) :
    step { s with ir := ir, freeCount := n } = .refused q := by
  obtain ⟨hs, hc, he⟩ | ⟨hs, rfl⟩ | ⟨r, hs, rfl⟩ := step_refused_cases h
  · rw [step_staleLatches_of_readable ir n hs hc]
    exact exec_withControl_refused he (fetched s).pc (fetched s).ir n
  · simp [step, hs]
  · simp [step, hs]

theorem step_staleLatches_next (h : step s = .next t) :
    ∃ t', step { s with ir := ir, freeCount := n } = .next t' ∧
      t'.regs = t.regs ∧ t'.pc = t.pc ∧ t'.mem = t.mem ∧ t'.status = t.status ∧ t'.params = t.params ∧
      (codeReadable s → t'.ir = t.ir) := by
  obtain ⟨hs, ⟨hc, rfl⟩ | ⟨hc, he⟩⟩ := step_next_code h
  · exact ⟨_, step_staleLatches_of_not_readable ir n hs hc, by simp [hc]⟩
  · obtain ⟨hpc, hir, -⟩ := exec_keeps_control he
    have he' := exec_withControl he (fetched s).pc (fetched s).ir n
    exact ⟨_, (step_staleLatches_of_readable ir n hs hc).trans he', rfl, hpc.symm, rfl, rfl, rfl, fun _ => hir.symm⟩

end StaleLatches

/-- Settles O47: a successful fetch writes all seven latches over, a failed one ends the cycle with free latches, and
the execute phase reads neither the latches nor the count. -/
theorem staleLatchesNeverMatter : Obligations.StaleLatchesNeverMatter :=
  fun _ ir n => ⟨fun _ h => step_staleLatches_refused ir n h, fun _ h => step_staleLatches_next ir n h⟩

/-! ### Reset -/

/-- Settles O48: every field that reset fixes or keeps, by the laws of `State.powerOn` and `State.applyReset`. -/
theorem resetValues : Obligations.ResetValues :=
  ⟨fun p regs ir m => ⟨State.powerOn_status p regs ir m, State.powerOn_pc p regs ir m, State.powerOn_mem p regs ir m,
      State.powerOn_regs p regs ir m⟩,
   fun _ _ _ => State.ext_fields (by simp) (by simp) (by simp) (by simp) (by simp) (by simp) (by simp),
   State.powerOn_status .., State.powerOn_pc .., State.powerOn_mem ..⟩

end Sys2Proof.Machine
end

section
/-! PROOFS. The statements of 20_memory.md: the invariant of the machine, the order of the bytes of a word, code as data,
and the parity of the PC. -/

namespace Sys2Proof.Machine

/-! ### The invariant -/

section Invariant
variable {i : Instr} {s t : State}

/-- The invariant speaks of memory and the parameters only. -/
theorem State.Inv.of_mem_params (h : s.Inv) (hm : t.mem = s.mem) (hp : t.params = s.params) : t.Inv := by
  obtain ⟨hlegal, hwf, hvalid⟩ := h
  exact ⟨hp ▸ hlegal, hm ▸ hwf, by rw [hm, hp]; exact hvalid⟩

/-- A word written at a valid address keeps the invariant: all four of its bytes are below MEM_SIZE (20_memory.md R32). -/
theorem State.Inv.setWord (h : s.Inv) {a : Word} (ha : validData s.params a) (v : Word) :
    (s.setMem (s.mem.setWord a.toNat v)).Inv := by
  obtain ⟨hlegal, hwf, hvalid⟩ := h
  refine ⟨hlegal, Memory.wf_setWord hwf _ _, fun c hc => ?_⟩
  obtain hc | ⟨-, hlt⟩ := Memory.mem_setWord hc
  · exact hvalid c hc
  · exact hlt.trans_le ha.1

/-- The execute phase keeps the invariant: it writes memory by a store to a valid address only. -/
theorem exec_keeps_inv (hs : s.Inv) (h : exec i s = .next t) : t.Inv := by
  obtain ⟨r, rfl⟩ | ⟨f, hf, v, -, rfl⟩ | ⟨a, f, hf, -, ha, rfl⟩ | ⟨-, rfl | ⟨-, rfl⟩⟩ := exec_next_cases h
  case inr.inr.inl => exact hs.setWord ha _
  all_goals exact hs.of_mem_params rfl rfl

/-- A cycle keeps the invariant: the fetch phase writes no memory, and the execute phase keeps it. -/
theorem step_keeps_inv (hs : s.Inv) (h : step s = .next t) : t.Inv := by
  obtain ⟨-, ⟨-, rfl⟩ | ⟨-, he⟩⟩ := step_next_code h
  · exact hs.of_mem_params rfl rfl
  · exact exec_keeps_inv (hs.of_mem_params (t := fetched s) rfl rfl) he

end Invariant

/-- Settles O44: the invariant is kept by each phase of a cycle. -/
theorem stepKeepsInvariant : Obligations.StepKeepsInvariant :=
  fun _ _ hs h => step_keeps_inv hs h

/-! ### Big-endian order -/

section BigEndian
variable {a v : Word} {s t : State}

/-- A word read from memory has the byte of its address on top (20_memory.md R33). -/
theorem Memory.byteOfWord_word (m : Memory) (a : Nat) :
    byteOfWord (m.word a) 0 = m.byte a ∧ byteOfWord (m.word a) 1 = m.byte (a + 1) ∧
      byteOfWord (m.word a) 2 = m.byte (a + 2) ∧ byteOfWord (m.word a) 3 = m.byte (a + 3) := by
  simp [Memory.word]

/-- The four bytes of a word just written, in address order (20_memory.md R33). -/
theorem Memory.byte_setWord_same (m : Memory) (a : Nat) (v : Word) :
    (m.setWord a v).byte a = byteOfWord v 0 ∧ (m.setWord a v).byte (a + 1) = byteOfWord v 1 ∧
      (m.setWord a v).byte (a + 2) = byteOfWord v 2 ∧ (m.setWord a v).byte (a + 3) = byteOfWord v 3 := by
  simp [Memory.byte_setWord]

/-- The extension word in the latches is the word at (PC + 2) mod 2^32 (40_fetch_unit.md R74). -/
theorem extAt_of_longAt (h : longAt s) : extAt s = s.mem.word (s.pc + 2#32).toNat := by
  simp only [extAt, if_pos h]; rfl

/-- IR.raw is byte0, byte1 and the extension word, byte0 on top (30_encoding.md R68). -/
theorem extractLsb'_raw (b0 b1 : Byte) (ext : Word) :
    (b0 ++ b1 ++ ext).extractLsb' 40 8 = b0 ∧ (b0 ++ b1 ++ ext).extractLsb' 32 8 = b1 ∧
      (b0 ++ b1 ++ ext).extractLsb' 0 32 = ext := by
  have hheader {start : Nat} (h : 32 ≤ start) :
      (b0 ++ b1 ++ ext).extractLsb' start 8 = (b0 ++ b1).extractLsb' (start - 32) 8 :=
    BitVec.extractLsb'_append_eq_of_le h
  refine ⟨?_, ?_, ?_⟩
  · exact (hheader (by decide)).trans <| (BitVec.extractLsb'_append_eq_of_le (by decide)).trans BitVec.extractLsb'_eq_self
  · exact (hheader (by decide)).trans <| (BitVec.extractLsb'_append_eq_of_add_le (by decide)).trans BitVec.extractLsb'_eq_self
  · exact (BitVec.extractLsb'_append_eq_of_add_le (by decide)).trans BitVec.extractLsb'_eq_self

/-- A word written through the port is in memory in address order, is the only change, and is read back at its address. -/
theorem mpWriteWord_bigEndian (h : mpWriteWord a v s = .ok t) :
    t.mem.byte a.toNat = byteOfWord v 0 ∧ t.mem.byte (a.toNat + 1) = byteOfWord v 1 ∧
      t.mem.byte (a.toNat + 2) = byteOfWord v 2 ∧ t.mem.byte (a.toNat + 3) = byteOfWord v 3 ∧
      (∀ b : Nat, b < a.toNat ∨ a.toNat + 4 ≤ b → t.mem.byte b = s.mem.byte b) ∧ mpReadWord .data a t = .ok v := by
  obtain ⟨hv, rfl⟩ := mpWriteWord_eq_ok.1 h
  obtain ⟨h0, h1, h2, h3⟩ := Memory.byte_setWord_same s.mem a.toNat v
  exact ⟨h0, h1, h2, h3, fun b hb => Memory.byte_setWord_frame _ _ hb,
    mpReadWord_eq_ok.2 ⟨hv, Memory.word_setWord_same ..⟩⟩

/-- A word read through the port is the four bytes from its address up, in address order. -/
theorem mpReadWord_bigEndian {k : AccessKind} (h : mpReadWord k a s = .ok v) :
    byteOfWord v 0 = s.mem.byte a.toNat ∧ byteOfWord v 1 = s.mem.byte (a.toNat + 1) ∧
      byteOfWord v 2 = s.mem.byte (a.toNat + 2) ∧ byteOfWord v 3 = s.mem.byte (a.toNat + 3) := by
  obtain ⟨-, rfl⟩ := mpReadWord_eq_ok.1 h
  exact Memory.byteOfWord_word ..

/-- A successful fetch leaves `fetched s`. -/
theorem fetch_eq_fetched (h : fetch s = .ok t) : t = fetched s := by
  rw [fetch_of_readable (readable_of_fetch h)] at h
  cases h; rfl

end BigEndian

/-- Settles O39: the word write, the word read and the fetch, each by the law of its bytes. -/
theorem memoryIsBigEndian : Obligations.MemoryIsBigEndian := by
  refine ⟨fun _ _ _ _ h => mpWriteWord_bigEndian h, fun _ _ _ _ h => mpReadWord_bigEndian h, fun s t h => ?_⟩
  obtain rfl := fetch_eq_fetched h
  obtain ⟨h0, h1, hext⟩ := extractLsb'_raw (byte0At s) (byte1At s) (extAt s)
  refine ⟨h0, h1, hext, fun hlong => ?_⟩
  show byteOfWord (extAt s) 0 = _ ∧ byteOfWord (extAt s) 1 = _ ∧ byteOfWord (extAt s) 2 = _ ∧ byteOfWord (extAt s) 3 = _
  rw [extAt_of_longAt hlong]
  exact Memory.byteOfWord_word ..

/-! ### A store is seen by the next fetch -/

section CodeAsData
variable {i j : Instr} {s t : State} {a v : Word} {rs : RegField}

theorem except_toOption_eq_some {ε α : Type} {x : Except ε α} {a : α} : x.toOption = some a ↔ x = .ok a := by
  cases x <;> simp [Except.toOption]

/-- An instruction with a store address is a store: its execute phase is the store of `rs` at that address. -/
theorem exec_of_storeAddress (h : i.storeAddress s = some (a, rs)) :
    ∃ ea : State → Except Stop Word, ea s = .ok a ∧ exec i s = execute (storeWord ea rs) s := by
  cases i <;> simp only [Instr.storeAddress, reduceCtorEq, Option.map_eq_some_iff, Prod.mk.injEq] at h
  case stOff =>
    obtain ⟨a', ha, rfl, rfl⟩ := h
    exact ⟨_, except_toOption_eq_some.1 ha, exec_stOff ..⟩
  case stIdx =>
    obtain ⟨a', ha, rfl, rfl⟩ := h
    exact ⟨_, except_toOption_eq_some.1 ha, exec_stIdx ..⟩

/-- A store that completes leaves the value of its register at its address, and nothing else changed. -/
theorem exec_store_running (h : i.storeAddress s = some (a, rs)) (hs : rs.toNat < 8) (he : exec i s = .next t)
    (ht : t.status = .running) : t = s.setMem (s.mem.setWord a.toNat s.regs[rs.toNat]) := by
  obtain ⟨ea, hea, hex⟩ := exec_of_storeAddress h
  obtain ⟨-, hb | ⟨r, -, rfl⟩⟩ := execute_next_cases (hex ▸ he)
  · obtain ⟨a', ha', -, -, rfl⟩ := storeWord_eq_ok.1 hb
    cases hea.symm.trans ha'
    rfl
  · simp at ht

/-- Four bytes decode to a 2-byte instruction only: the extension of a 6-byte one is not among them (30_encoding.md R55). -/
theorem decode_bytesOfWord {rest : List Byte} (h : decode (bytesOfWord v) = .ok (j, rest)) :
    hasExtension (highNibble (byteOfWord v 0)) = false ∧
      j = decodeIR (latchFields (byteOfWord v 0) (byteOfWord v 1) 0#32) := by
  cases hx : hasExtension (highNibble (byteOfWord v 0)) with
  | true => simp [bytesOfWord, decode, hx] at h
  | false =>
    rw [bytesOfWord, decode_short hx] at h
    cases h
    exact ⟨rfl, rfl⟩

/-- With a word at the PC that decodes, a cycle is the execute phase of what it decodes to. -/
theorem step_of_word_at_pc {rest : List Byte} (hr : s.status = .running) (hv : validHeader s.params s.pc)
    (h0 : byte0At s = byteOfWord v 0) (h1 : byte1At s = byteOfWord v 1) (hd : decode (bytesOfWord v) = .ok (j, rest)) :
    step s = exec j { s with ir := codeLatches s, pc := s.pc + 2#32 } := by
  obtain ⟨hx, rfl⟩ := decode_bytesOfWord hd
  have hshort : ¬ longAt s := (not_hasExtension_highNibble _).1 (h0 ▸ hx)
  rw [step_of_readable hr ⟨hv, fun hl => absurd hl hshort⟩, fetched, codeLatches_eq, extAt, codeLength, if_neg hshort,
    if_neg hshort, h0, h1]

end CodeAsData

/-- Settles O41: the store leaves the PC, so the fetch of the next cycle reads the bytes just stored. -/
theorem storeIsSeenByNextFetch : Obligations.StoreIsSeenByNextFetch := by
  intro i j s t rs hs rest ha he ht hv hd _
  obtain rfl := exec_store_running ha hs he ht
  obtain ⟨h0, h1, -, -⟩ := Memory.byte_setWord_same s.mem s.pc.toNat s.regs[rs.toNat]
  exact ⟨_, step_of_word_at_pc ht hv h0 h1 hd⟩

/-! ### The parity of the PC -/

section Parity
variable {s t : State}

/-- A cycle leaves the PC after a failed fetch and else advances it by the length of the instruction (40_fetch_unit.md R75,
R76). -/
theorem step_pc (h : step s = .next t) : t.pc = s.pc ∨ t.pc = s.pc + BitVec.ofNat 32 (codeLength s) := by
  obtain ⟨-, ⟨-, rfl⟩ | ⟨-, he⟩⟩ := step_next_code h
  · exact .inl rfl
  · exact .inr (exec_keeps_control he).1

theorem codeLength_eq_two_or_six (s : State) : codeLength s = 2 ∨ codeLength s = 6 := by
  by_cases hl : longAt s <;> simp [codeLength, hl]

end Parity

/-- Settles O46: both lengths are even, and so is the modulus 2^32 of the advance. -/
theorem pcKeepsParity : Obligations.PcKeepsParity := by
  intro s t h
  obtain hpc | hpc := step_pc h
  · rw [hpc]
  · rw [hpc, BitVec.toNat_add, BitVec.toNat_ofNat]
    obtain hlen | hlen := codeLength_eq_two_or_six s <;> rw [hlen] <;> omega

end Sys2Proof.Machine
end

section
/-! PROOFS. The statements of 30_encoding.md: the decoder and the encoder are inverse to each other, and the opcode nibble
alone gives the length. -/

namespace Sys2Proof

/-! ### The decoder on the bytes of a header -/

/-- Bytes that begin with a 2-byte header decode to the row that its latches select. -/
theorem decode_header {opcode : Nibble} (h : hasExtension opcode = false) (op0 : Nibble) (b1 : Byte) (rest : List Byte) :
    decode (header opcode op0 b1 ++ rest) = .ok (decodeIR (latchFields (packNibbles opcode op0) b1 0#32), rest) :=
  decode_short (by simpa using h) rest

/-- Bytes that begin with a header and an extension word decode to the row that their latches select. -/
theorem decode_header_bytesOfWord {opcode : Nibble} (h : hasExtension opcode = true) (op0 : Nibble) (b1 : Byte) (v : Word)
    (rest : List Byte) :
    decode (header opcode op0 b1 ++ bytesOfWord v ++ rest) =
      .ok (decodeIR (latchFields (packNibbles opcode op0) b1 v), rest) :=
  (decode_long (by simpa using h) ..).trans (by rw [wordOfBytes_byteOfWord]; rfl)

/-! ### The rows that share an opcode with others -/

section SharedOpcode
variable {ir : IR}

/-- The selectors 0x8 to 0xF of opcode 0x6 (45_halt_nop.md R126). -/
theorem decodeAlu_of_eight_le (h : 8 ≤ ir.op0.toNat) :
    decodeAlu ir = .reservedAlu ir.op0 (packNibbles ir.op1 ir.op2) := by
  unfold decodeAlu
  split
  case h_9 => rfl
  all_goals next hop0 => rw [hop0] at h; exact absurd h (by decide)

/-- The selectors 0x1 to 0xE of opcode 0xF (45_halt_nop.md R124). -/
theorem decodeSystem_of_between (h1 : 1 ≤ ir.op0.toNat) (h14 : ir.op0.toNat ≤ 14) :
    decodeSystem ir = .nopU ir.op0 (packNibbles ir.op1 ir.op2) := by
  unfold decodeSystem
  split
  next hop0 => rw [hop0] at h1; exact absurd h1 (by decide)
  next hop0 => rw [hop0] at h14; exact absurd h14 (by decide)
  next => rfl

end SharedOpcode

/-! ### Decode after encode -/

/-- Settles O1: each encoding is a header, for two instructions with an extension word, and its latches select the row it
was made from; the selectors of `nop.u` and `reserved.alu` meet no other row by well-formedness. -/
theorem decodeInvertsEncode : Obligations.DecodeInvertsEncode := by
  intro i rest hwf
  cases i
  case ldImm | reservedB => exact (decode_header_bytesOfWord rfl ..).trans (by simp [decodeIR])
  case nopU selector pad =>
    obtain ⟨h1, h14⟩ : 1 ≤ selector.toNat ∧ selector.toNat ≤ 14 := by simpa [Instr.wf] using hwf
    exact (decode_header rfl ..).trans (by simp [decodeIR, decodeSystem_of_between, h1, h14])
  case reservedAlu selector pad =>
    have h8 : 8 ≤ selector.toNat := by simpa [Instr.wf] using hwf
    exact (decode_header rfl ..).trans (by simp [decodeIR, decodeAlu_of_eight_le, h8])
  case mov | add | and | inc | inca | dec | deca | not =>
    exact (decode_header rfl ..).trans (by simp [decodeIR, decodeAlu])
  case halt | nop => exact (decode_header rfl ..).trans (by simp [decodeIR, decodeSystem])
  all_goals exact (decode_header rfl ..).trans (by simp [decodeIR])

/-! ### Encode after decode -/

/-- The bytes that latches stand for: the header, and the extension word where the opcode asks for one. -/
def IR.bytes (ir : IR) : List Byte :=
  header ir.opcode ir.op0 (packNibbles ir.op1 ir.op2) ++ if hasExtension ir.opcode then bytesOfWord ir.ext else []

theorem IR.bytes_of_short {ir : IR} (h : hasExtension ir.opcode = false) :
    ir.bytes = header ir.opcode ir.op0 (packNibbles ir.op1 ir.op2) := by
  simp [IR.bytes, h]

theorem IR.bytes_of_long {ir : IR} (h : hasExtension ir.opcode = true) :
    ir.bytes = header ir.opcode ir.op0 (packNibbles ir.op1 ir.op2) ++ bytesOfWord ir.ext := by
  simp [IR.bytes, h]

theorem IR.bytes_length (ir : IR) : ir.bytes.length = instrLength ir.opcode := by
  obtain ⟨hx, hn⟩ | ⟨hx, hn⟩ := instrLength_cases ir.opcode
  · rw [IR.bytes_of_long hx, hn]; rfl
  · rw [IR.bytes_of_short hx, hn]; rfl

theorem latchFields_bytes_of_short {b0 b1 : Byte} {ext : Word} (h : hasExtension (highNibble b0) = false) :
    (latchFields b0 b1 ext).bytes = [b0, b1] := by
  simp [IR.bytes_of_short, h, header]

theorem latchFields_bytes_of_long {b0 b1 : Byte} {ext : Word} (h : hasExtension (highNibble b0) = true) :
    (latchFields b0 b1 ext).bytes = b0 :: b1 :: bytesOfWord ext := by
  simp [IR.bytes_of_long, h, header]

/-- Opcode 0xF is the one that the fifteen other rows leave (30_encoding.md R65). -/
theorem opcode_eq_F : ∀ n : Nibble, n ≠ 0x0#4 → n ≠ 0x1#4 → n ≠ 0x2#4 → n ≠ 0x3#4 → n ≠ 0x4#4 → n ≠ 0x5#4 → n ≠ 0x6#4 →
    n ≠ 0x7#4 → n ≠ 0x8#4 → n ≠ 0x9#4 → n ≠ 0xA#4 → n ≠ 0xB#4 → n ≠ 0xC#4 → n ≠ 0xD#4 → n ≠ 0xE#4 → n = 0xF#4 := by
  bv_omega

/-- The selectors that the eight operations of the ALU group leave (45_halt_nop.md R126). -/
theorem eight_le_of_not_aluSelector : ∀ n : Nibble, n ≠ 0x0#4 → n ≠ 0x1#4 → n ≠ 0x2#4 → n ≠ 0x3#4 → n ≠ 0x4#4 →
    n ≠ 0x5#4 → n ≠ 0x6#4 → n ≠ 0x7#4 → 8 ≤ n.toNat := by
  bv_omega

/-- The selectors that `halt` and `nop` leave (45_halt_nop.md R124). -/
theorem between_of_not_haltNopSelector : ∀ n : Nibble, n ≠ 0x0#4 → n ≠ 0xF#4 → 1 ≤ n.toNat ∧ n.toNat ≤ 14 := by
  decide

section EncodeAfterDecode
variable (ir : IR)

theorem decodeAlu_wf : (decodeAlu ir).wf = true := by
  unfold decodeAlu
  split
  case h_9 =>
    have h8 : 8 ≤ ir.op0.toNat := by apply eight_le_of_not_aluSelector <;> assumption
    simpa [Instr.wf] using h8
  all_goals rfl

theorem decodeSystem_wf : (decodeSystem ir).wf = true := by
  unfold decodeSystem
  split
  next => rfl
  next => rfl
  next h0 hF => simpa [Instr.wf] using between_of_not_haltNopSelector ir.op0 h0 hF

/-- Whatever the latches hold, they select a well-formed instruction (30_encoding.md R65). -/
theorem decodeIR_wf : (decodeIR ir).wf = true := by
  unfold decodeIR
  split
  case h_7 => exact decodeAlu_wf ir
  case h_16 => exact decodeSystem_wf ir
  all_goals rfl

theorem encode_decodeAlu : encode (decodeAlu ir) = header 0x6#4 ir.op0 (packNibbles ir.op1 ir.op2) := by
  unfold decodeAlu
  split
  case h_9 => rfl
  all_goals next hop0 => rw [hop0]; rfl

theorem encode_decodeSystem : encode (decodeSystem ir) = header 0xF#4 ir.op0 (packNibbles ir.op1 ir.op2) := by
  unfold decodeSystem
  split
  next hop0 => rw [hop0]; rfl
  next hop0 => rw [hop0]; rfl
  next => rfl

variable {ir}

/-- No row loses a bit of the latches it is decoded from: every field is kept, and so are the don't-care bits. -/
theorem encode_decodeIR (himm : ir.imm = packNibbles ir.op1 ir.op2) : encode (decodeIR ir) = ir.bytes := by
  unfold decodeIR
  split
  case h_1 hop | h_12 hop => rw [IR.bytes_of_long (by rw [hop]; rfl), hop]; rfl
  case h_7 hop => rw [encode_decodeAlu, IR.bytes_of_short (by rw [hop]; rfl), hop]
  case h_8 hop => rw [IR.bytes_of_short (by rw [hop]; rfl), hop, himm]; rfl
  case h_16 =>
    have hop : ir.opcode = 0xF#4 := by apply opcode_eq_F <;> assumption
    rw [encode_decodeSystem, IR.bytes_of_short (by rw [hop]; rfl), hop]
  all_goals next hop => rw [IR.bytes_of_short (by rw [hop]; rfl), hop]; rfl

theorem encode_decodeIR_latchFields (b0 b1 : Byte) (ext : Word) :
    encode (decodeIR (latchFields b0 b1 ext)) = (latchFields b0 b1 ext).bytes :=
  encode_decodeIR (by simp)

end EncodeAfterDecode

/-- All a byte string that decodes can be: the bytes of some latches and what is left over, and the instruction is the row
these latches select. -/
theorem decode_eq_ok {bs rest : List Byte} {i : Instr} (h : decode bs = .ok (i, rest)) :
    ∃ b0 b1 ext, i = decodeIR (latchFields b0 b1 ext) ∧ bs = (latchFields b0 b1 ext).bytes ++ rest := by
  unfold decode at h
  split at h
  next b0 b1 tail =>
    split at h
    next hx =>
      split at h
      next e0 e1 e2 e3 rest' => cases h; exact ⟨b0, b1, _, rfl, by simp [latchFields_bytes_of_long hx]⟩
      next => cases h
    next hx => cases h; exact ⟨b0, b1, _, rfl, by rw [latchFields_bytes_of_short (by simpa using hx)]; rfl⟩
  next => cases h

/-- Settles O2: the bytes are those of some latches, and encoding the row that latches select gives their bytes back. -/
theorem encodeInvertsDecode : Obligations.EncodeInvertsDecode := by
  intro bs i rest h
  obtain ⟨b0, b1, ext, rfl, rfl⟩ := decode_eq_ok h
  exact ⟨decodeIR_wf _, by rw [encode_decodeIR_latchFields]⟩

/-! ### The length -/

section Length
variable {b0 : Byte} (b1 : Byte) {rest : List Byte}

theorem instrLength_highNibble (b0 : Byte) :
    instrLength (highNibble b0) = if b0.toNat / 16 = 0 ∨ b0.toNat / 16 = 11 then 6 else 2 := by
  simp only [instrLength, Machine.hasExtension_highNibble]

/-- With the bytes that its length asks for, every header decodes, and the decoder takes exactly these bytes. -/
theorem decode_of_length_le (h : instrLength (highNibble b0) ≤ rest.length + 2) :
    ∃ ext, decode (b0 :: b1 :: rest) =
      .ok (decodeIR (latchFields b0 b1 ext), rest.drop (instrLength (highNibble b0) - 2)) := by
  obtain ⟨hx, hn⟩ | ⟨hx, hn⟩ := instrLength_cases (highNibble b0)
  · rw [hn] at h ⊢
    match rest, h with
    | e0 :: e1 :: e2 :: e3 :: rest', _ => exact ⟨_, decode_long hx e0 e1 e2 e3 rest'⟩
  · rw [hn]
    exact ⟨_, decode_short hx rest⟩

/-- With fewer bytes the extension is cut off: a header alone is a whole 2-byte instruction. -/
theorem decode_of_length_lt (h : rest.length + 2 < instrLength (highNibble b0)) :
    decode (b0 :: b1 :: rest) = .error .truncatedExtension := by
  obtain ⟨hx, hn⟩ | ⟨-, hn⟩ := instrLength_cases (highNibble b0)
  · rw [hn] at h
    match rest, h with
    | [], _ | [_], _ | [_, _], _ | [_, _, _], _ => simp [decode, hx]
  · omega

end Length

/-- A cycle whose fetch succeeds advances the PC by the length of the instruction (40_fetch_unit.md R76). -/
theorem Machine.step_pc_of_readable {s t : State} (hc : codeReadable s) (h : step s = .next t) :
    t.pc = s.pc + BitVec.ofNat 32 (codeLength s) := by
  obtain ⟨-, ⟨hn, -⟩ | ⟨-, he⟩⟩ := Machine.step_next_code h
  · exact absurd hc hn
  · exact (Machine.exec_keeps_control he).1

/-- Settles O3: both the decoder and the fetch unit take the length from the opcode nibble. -/
theorem lengthComesFromOpcodeNibble : Obligations.LengthComesFromOpcodeNibble := by
  refine ⟨fun b0 b1 rest => ?_, fun s t hc h => ?_⟩
  · rw [← instrLength_highNibble]
    refine ⟨fun hle => ?_, decode_of_length_lt b1⟩
    obtain ⟨ext, hd⟩ := decode_of_length_le b1 hle
    exact ⟨_, hd, by rw [encode_decodeIR_latchFields, IR.bytes_length, latchFields_opcode]⟩
  · rw [Machine.step_pc_of_readable hc h, codeLength, apply_ite (BitVec.ofNat 32)]

/-! ### Words of the spec -/

/-- Settles O4: the words are what the encoder makes of the instructions they stand for. -/
theorem specWordsDecode : Obligations.SpecWordsDecode :=
  ⟨decodeInvertsEncode (.ldImm 3#4 0xAB#8 0x12345678#32) [] rfl, decodeInvertsEncode (.stOff 2#4 2#4 0#4) [] rfl,
   decodeInvertsEncode (.add 1#4 2#4) [] rfl, decodeInvertsEncode (.shift 2#4 0xFE#8) [] rfl,
   decodeInvertsEncode (.nopU 7#4 0#8) [] rfl, decodeInvertsEncode (.reservedB 0#4 0#8 0x100#32) [] rfl⟩

end Sys2Proof
end

section
/-! PROOFS. The statements of 40_fetch_unit.md: the header fields, the extension word, the PC after a fetch that succeeds and
after one that fails, and the end of memory. -/

namespace Sys2Proof.Machine

variable {s t : State}

/-! ### The header fields -/

/-- A byte read as a signed number (40_fetch_unit.md R72). -/
theorem byte_toInt (b : Byte) : b.toInt = if b.toNat ≤ 127 then (b.toNat : Int) else b.toNat - 256 := by
  rw [BitVec.toInt_eq_toNat_cond]
  split <;> split <;> omega

/-- Settles O7: the latches of a readable fetch are `codeLatches`, and a slice of a byte as a number is a nibble or the
byte. -/
theorem fetchExtractsHeaderFields : Obligations.FetchExtractsHeaderFields := by
  intro s hc
  have hir : (fetched s).ir = latchFields (byte0At s) (byte1At s) (extAt s) := codeLatches_eq s
  refine ⟨fetched s, fetch_of_readable hc, ?_⟩
  simp only [hir, latchFields_opcode, latchFields_op0, latchFields_op1, latchFields_op2, latchFields_imm,
    highNibble_toNat, lowNibble_toNat, byte_toInt, and_self]

/-! ### The extension word -/

/-- A fetch succeeds exactly when the reads it makes are valid (40_fetch_unit.md R71, R74, R75). -/
theorem exists_fetch_iff_readable (s : State) : (∃ t, fetch s = .ok t) ↔ codeReadable s :=
  ⟨fun ⟨_, h⟩ => readable_of_fetch h, fun hc => ⟨_, fetch_of_readable hc⟩⟩

section Short
variable {m : Memory} (hl : ¬ longAt s)
include hl

theorem extAt_of_not_longAt : extAt s = 0#32 := if_neg hl

theorem codeLength_of_not_longAt : codeLength s = 2 := if_neg hl

variable (h0 : m.byte s.pc.toNat = byte0At s)
include h0

theorem not_longAt_setMem : ¬ longAt (s.setMem m) := by
  have hbyte : byte0At (s.setMem m) = byte0At s := h0
  rwa [longAt, hbyte]

/-- With a 2-byte instruction at the PC, a fetch is valid in every memory that has its byte0: the header is all it reads. -/
theorem codeReadable_setMem (hc : codeReadable s) : codeReadable (s.setMem m) :=
  ⟨hc.1, fun h => absurd h (not_longAt_setMem hl h0)⟩

/-- With a 2-byte instruction at the PC, what a fetch leaves depends on the two bytes of the header alone. -/
theorem fetched_setMem (h1 : m.byte (s.pc.toNat + 1) = byte1At s) : fetched (s.setMem m) = (fetched s).setMem m := by
  have hl' := not_longAt_setMem hl h0
  have hir : codeLatches (s.setMem m) = codeLatches s := by
    rw [codeLatches_eq, codeLatches_eq, extAt_of_not_longAt hl, extAt_of_not_longAt hl', ← h0, ← h1]
    rfl
  rw [fetched, hir, codeLength_of_not_longAt hl', fetched, codeLength_of_not_longAt hl]
  rfl

end Short

/-- Settles O8: success is readability of the code, and a fetch of two bytes is the same in every memory with these two. -/
theorem extensionReadForTwoOpcodesOnly : Obligations.ExtensionReadForTwoOpcodesOnly := by
  refine ⟨exists_fetch_iff_readable, fun s t m hl hf h0 h1 => ?_⟩
  have hc := readable_of_fetch hf
  obtain rfl := fetch_eq_fetched hf
  refine ⟨extAt_of_not_longAt hl, ?_⟩
  exact (fetch_of_readable (codeReadable_setMem hl h0 hc)).trans (congrArg _ (fetched_setMem hl h0 h1))

/-! ### The PC after a fetch that succeeds -/

/-- The PC between the phases, in integers (40_fetch_unit.md R76). -/
theorem fetched_pc_toNat (s : State) : (fetched s).pc.toNat = (s.pc.toNat + codeLength s) % 4294967296 := by
  simp only [fetched, BitVec.toNat_add, BitVec.toNat_ofNat, Nat.add_mod_mod, Nat.reducePow]

/-- The PC after a cycle whose fetch succeeds, in integers (40_fetch_unit.md R76). -/
theorem step_pc_toNat_of_readable (hc : codeReadable s) (h : step s = .next t) :
    t.pc.toNat = (s.pc.toNat + codeLength s) % 4294967296 :=
  (congrArg BitVec.toNat (step_pc_of_readable hc h)).trans (fetched_pc_toNat s)

/-- Settles O10: a fetch that succeeds leaves the PC of `fetched`, and the execute phase keeps the PC. -/
theorem pcAdvancesForEveryInstruction : Obligations.PcAdvancesForEveryInstruction := by
  refine ⟨fun s u hf => ?_, fun s t hc h => step_pc_toNat_of_readable hc h⟩
  obtain rfl := fetch_eq_fetched hf
  exact fetched_pc_toNat s

/-! ### A fetch that fails -/

/-- Settles O9: the cycle leaves `fetchFailed` with the fault raised, and that changes the latches, the count of free
values and STATUS alone. -/
theorem fetchFaultLeavesPcAndState : Obligations.FetchFaultLeavesPcAndState :=
  fun _ hr hc => ⟨_, _, step_of_not_readable hr hc⟩

/-! ### The end of memory -/

/-- No code is readable from MEM_SIZE up: not even its byte0 is at a valid address (20_memory.md R31, R32). -/
theorem not_codeReadable_of_memSize_le (h : s.params.memSize ≤ s.pc.toNat) : ¬ codeReadable s := by
  rintro ⟨⟨hrange, -⟩, -⟩
  omega

/-- Settles O12: below 2^32 the PC does not wrap, so it is MEM_SIZE, where the next fetch fails. -/
theorem fetchRunsOffTheEndOfMemory : Obligations.FetchRunsOffTheEndOfMemory := by
  intro s t hsize hc hend h
  have hpc : t.pc.toNat = s.params.memSize := by
    rw [step_pc_toNat_of_readable hc h, hend, Nat.mod_eq_of_lt hsize]
  refine ⟨hpc, fun hr => ?_⟩
  have hoff : ¬ codeReadable t := not_codeReadable_of_memSize_le (by rw [step_params h, hpc])
  exact ⟨_, step_of_not_readable hr hoff, State.raise_status .., rfl⟩

end Sys2Proof.Machine
end

section
/-! PROOFS. The statements of 41_decode_dispatch.md: the row that the decoder selects, the instruction that a cycle runs,
and what the execute phase writes. -/

namespace Sys2Proof.Machine

/-! ### The row that the decoder selects -/

section Row
variable {ir ir' : IR}

/-- Within opcode 0x6, op0 selects the row (43_alu.md R100). -/
theorem mnemonic_decodeAlu_congr (h0 : ir.op0 = ir'.op0) : (decodeAlu ir).mnemonic = (decodeAlu ir').mnemonic := by
  unfold decodeAlu
  rw [h0]
  split <;> rfl

/-- Within opcode 0xF, op0 selects the row (45_halt_nop.md R122 to R124). -/
theorem mnemonic_decodeSystem_congr (h0 : ir.op0 = ir'.op0) :
    (decodeSystem ir).mnemonic = (decodeSystem ir').mnemonic := by
  unfold decodeSystem
  rw [h0]
  split <;> rfl

end Row

/-- Settles O5: the opcode selects the row, but for opcodes 0x6 and 0xF, where op0 selects among theirs. -/
theorem rowSelectedByOpcodeAndOp0 : Obligations.RowSelectedByOpcodeAndOp0 := by
  intro ir ir' hop h0
  unfold decodeIR
  rw [hop]
  split
  case h_7 => exact mnemonic_decodeAlu_congr h0
  case h_16 => exact mnemonic_decodeSystem_congr h0
  all_goals rfl

/-! ### The instruction that a cycle runs -/

/-- Settles O6: the bytes at the PC decode to the instruction in the latches, and a cycle with readable code runs that one
on `fetched`. -/
theorem stepRunsDecodedInstruction : Obligations.StepRunsDecodedInstruction := by
  intro s i hr hc hd
  cases (decode_codeBytes s).symm.trans hd
  exact step_of_readable hr hc

/-! ### What the execute phase writes -/

/-- Settles O11: whichever write the execute phase ends in, it is none of these fields. -/
theorem executeKeepsPcAndLatches : Obligations.ExecuteKeepsPcAndLatches :=
  fun _ _ _ h => exec_keeps_control h

section Writes
variable {i : Instr} {s t : State}

/-- A store writes no register (10_state.md R12). -/
theorem written_of_storeAddress {p : Word × RegField} (h : i.storeAddress s = some p) : i.written = none := by
  cases i
  case stOff | stIdx => rfl
  all_goals cases h

/-- An instruction of the table's writers that completes writes its register and nothing else. -/
theorem exec_writer_running {rd : RegField} (hw : i.written = some rd) (h : exec i s = .next t) (ht : t.status = .running) :
    ∃ (hd : rd.toNat < 8) (v : Word), t = s.setReg rd.toNat v hd := by
  obtain ⟨r, rfl⟩ | ⟨f, hf, v, hwf, rfl⟩ | ⟨a, f, hf, ha, -, rfl⟩ | ⟨hn, -⟩ := exec_next_cases h
  · cases ht
  · cases hw.symm.trans hwf
    exact ⟨hf, v, rfl⟩
  · cases hw.symm.trans (written_of_storeAddress ha)
  · cases hw.symm.trans hn

end Writes

/-- Settles O36: the whole effect is one `State.setReg`, whose laws are the frame. -/
theorem registerWriterFrame : Obligations.RegisterWriterFrame := by
  intro i s t rd hw h ht
  have hs := exec_next_running h
  obtain ⟨hd, v, rfl⟩ := exec_writer_running hw h ht
  exact ⟨fun k hk hne => Vector.getElem_set_ne hd hk hne.symm, fun _ => rfl, rfl, rfl, rfl, rfl, rfl, hs⟩

/-- Settles O38: of the ends of an execute phase, a register write and a word write are one place each and leave STATUS
Running; a fault, a halt and a no-op are none. -/
theorem executeWritesAtMostOnePlace : Obligations.ExecuteWritesAtMostOnePlace := by
  intro i s t h
  have hs := exec_next_running h
  obtain ⟨r, rfl⟩ | ⟨f, hf, v, hw, rfl⟩ | ⟨a, f, hf, ha, hv, rfl⟩ | ⟨-, rfl | ⟨-, rfl⟩⟩ := exec_next_cases h
  case inr.inl => exact .inr (.inl ⟨hs, rfl, f, hf, v, hw, rfl⟩)
  case inr.inr.inl => exact .inr (.inr ⟨hs, rfl, a, _, f, ha, hv, rfl⟩)
  all_goals exact .inl ⟨rfl, rfl⟩

end Sys2Proof.Machine
end

section
/-! PROOFS. The statements of 42_load_store.md: what each load and each store does in every form, the frame of the stores,
and a load of the word just stored. -/

namespace Sys2Proof.Machine

/-! ### The effective addresses in integers -/

section Addresses
variable {s : State} {base index : RegField}

/-- The offset form's address in integers (20_memory.md R41): the nibble is unsigned, and the sum wraps at 2^32. -/
theorem offsetAddress_eq_ofNat (b : Word) (offset : Nibble) :
    offsetAddress b offset = BitVec.ofNat 32 (b.toNat + 4 * offset.toNat) := by
  apply BitVec.eq_of_toNat_eq
  simp only [offsetAddress, BitVec.toNat_add, BitVec.toNat_shiftLeft, BitVec.toNat_setWidth, BitVec.toNat_ofNat,
    Nat.shiftLeft_eq]
  omega

/-- The indexed form's address in integers (20_memory.md R41): what the shift of the index loses is a multiple of 2^32. -/
theorem indexedAddress_eq_ofNat (b i : Word) :
    indexedAddress b i = BitVec.ofNat 32 (b.toNat + 4 * i.toNat) := by
  apply BitVec.eq_of_toNat_eq
  simp only [indexedAddress, BitVec.toNat_add, BitVec.toNat_shiftLeft, BitVec.toNat_ofNat, Nat.shiftLeft_eq]
  omega

theorem eaOffset_ok (hb : base.toNat < 8) (offset : Nibble) :
    eaOffset base offset s = .ok (BitVec.ofNat 32 (s.regs[base.toNat].toNat + 4 * offset.toNat)) :=
  eaOffset_eq_ok.2 ⟨hb, offsetAddress_eq_ofNat ..⟩

theorem eaIndexed_ok (hb : base.toNat < 8) (hi : index.toNat < 8) :
    eaIndexed base index s = .ok (BitVec.ofNat 32 (s.regs[base.toNat].toNat + 4 * s.regs[index.toNat].toNat)) :=
  eaIndexed_eq_ok.2 ⟨hb, hi, indexedAddress_eq_ofNat ..⟩

end Addresses

/-! ### The loads -/

theorem valid_data_eq_false_iff (p : Params) (a : Word) : valid p a 4 .data = false ↔ ¬ validData p a := by
  rw [← valid_data_iff, Bool.not_eq_true]

section Load
variable {ea : State → Except Stop Word} {s : State} {a : Word} {rd : RegField}

/-- A load without an address stops where the address did. -/
theorem execute_loadWord_address_raise {r : Fault} (hr : s.status = .running) (hea : ea s = .error (.raise r)) :
    execute (loadWord ea rd) s = .next (s.raise r) :=
  execute_raise hr (by simp [loadWord, hea])

/-- The memory check comes first after the address (92_eei_decisions.md D11). -/
theorem execute_loadWord_invalid (hr : s.status = .running) (hea : ea s = .ok a) (hv : ¬ validData s.params a) :
    execute (loadWord ea rd) s = .next (s.raise .addressError) :=
  execute_raise hr <| by
    rw [loadWord, hea, ok_bind, mpReadWord_eq_error.2 ⟨(valid_data_eq_false_iff ..).2 hv, rfl⟩, error_bind]

/-- A valid read leaves the destination field as the one thing that can fault. -/
theorem execute_loadWord_destination_raise (hr : s.status = .running) (hea : ea s = .ok a)
    (hv : validData s.params a) (hd : 8 ≤ rd.toNat) :
    execute (loadWord ea rd) s = .next (s.raise .registerRangeError) :=
  execute_raise hr <| by
    rw [loadWord, hea, ok_bind, mpReadWord_eq_ok.2 ⟨(valid_data_iff ..).2 hv, rfl⟩, ok_bind, rfSet_error hd]

theorem execute_loadWord_ok (hr : s.status = .running) (hea : ea s = .ok a) (hv : validData s.params a)
    (hd : rd.toNat < 8) : execute (loadWord ea rd) s = .next (withReg s rd hd (s.mem.word a.toNat)) :=
  execute_ok hr (loadWord_eq_ok.2 ⟨a, hea, (valid_data_iff ..).2 hv, hd, rfl⟩)

end Load

/-- Settles O13: the decoding is the round trip of the encoding, and the meaning is one register write. -/
theorem loadImmediateResult : Obligations.LoadImmediateResult := by
  intro rd pad v s hr
  refine ⟨fun rest => decodeInvertsEncode (.ldImm rd pad v) rest rfl, fun hd => ?_, fun hd => ?_⟩
  · exact execute_ok hr (rfSet_ok hd)
  · exact execute_raise hr (rfSet_error hd)

/-- Settles O14: the offset form of the load, at the address in integers. -/
theorem loadOffsetResult : Obligations.LoadOffsetResult := by
  intro offset base rd s hr
  refine ⟨fun hb => execute_loadWord_address_raise hr (eaOffset_eq_error.2 ⟨hb, rfl⟩), fun hb => ?_⟩
  have hea := eaOffset_ok (s := s) hb offset
  exact ⟨execute_loadWord_invalid hr hea,
    fun hv => ⟨execute_loadWord_destination_raise hr hea hv, execute_loadWord_ok hr hea hv⟩⟩

/-- Settles O15: the indexed form of the load, at the address in integers. -/
theorem loadIndexedResult : Obligations.LoadIndexedResult := by
  intro base index rd s hr
  refine ⟨fun h => execute_loadWord_address_raise hr (eaIndexed_eq_error.2 ⟨h, rfl⟩), fun hb hi => ?_⟩
  have hea := eaIndexed_ok (s := s) hb hi
  exact ⟨execute_loadWord_invalid hr hea,
    fun hv => ⟨execute_loadWord_destination_raise hr hea hv, execute_loadWord_ok hr hea hv⟩⟩

/-! ### The stores -/

section Store
variable {ea : State → Except Stop Word} {s : State} {a : Word} {rs : RegField}

/-- A store reads every register it uses before it checks the address (92_eei_decisions.md D11): if one of the fields is
above 7, in the address or for the value, that is the fault. -/
theorem execute_storeWord_field_raise (hr : s.status = .running) {addressFields : Prop}
    (hea : ∀ e, ea s = .error e ↔ addressFields ∧ e = .raise .registerRangeError) (h : addressFields ∨ 8 ≤ rs.toNat) :
    execute (storeWord ea rs) s = .next (s.raise .registerRangeError) :=
  execute_raise hr <| by
    cases ha : ea s with
    | error e => rw [storeWord, ha, error_bind, ((hea e).1 ha).2]
    | ok a =>
      have hin : ¬ addressFields := fun h => by cases ha.symm.trans ((hea _).2 ⟨h, rfl⟩)
      rw [storeWord, ha, ok_bind, rfGet_error (h.resolve_left hin), error_bind]

theorem execute_storeWord_invalid (hr : s.status = .running) (hea : ea s = .ok a) (hs : rs.toNat < 8)
    (hv : ¬ validData s.params a) : execute (storeWord ea rs) s = .next (s.raise .addressError) :=
  execute_raise hr <| by
    rw [storeWord, hea, ok_bind, rfGet_ok hs, ok_bind,
      mpWriteWord_eq_error.2 ⟨(valid_data_eq_false_iff ..).2 hv, rfl⟩]

theorem execute_storeWord_ok (hr : s.status = .running) (hea : ea s = .ok a) (hs : rs.toNat < 8)
    (hv : validData s.params a) :
    execute (storeWord ea rs) s = .next (s.setMem (s.mem.setWord a.toNat s.regs[rs.toNat])) :=
  execute_ok hr (storeWord_eq_ok.2 ⟨a, hea, (valid_data_iff ..).2 hv, hs, rfl⟩)

end Store

/-- Settles O16: the offset form of the store, at the address in integers. -/
theorem storeOffsetResult : Obligations.StoreOffsetResult := by
  intro rs offset base s hr
  refine ⟨execute_storeWord_field_raise hr fun _ => eaOffset_eq_error, fun hb hs => ?_⟩
  have hea := eaOffset_ok (s := s) hb offset
  exact ⟨execute_storeWord_invalid hr hea hs, execute_storeWord_ok hr hea hs⟩

/-- Settles O17: the indexed form of the store, at the address in integers. -/
theorem storeIndexedResult : Obligations.StoreIndexedResult := by
  intro rs base index s hr
  refine ⟨fun h => execute_storeWord_field_raise hr (fun _ => eaIndexed_eq_error) (or_assoc.2 h), fun hb hi hs => ?_⟩
  have hea := eaIndexed_ok (s := s) hb hi
  exact ⟨execute_storeWord_invalid hr hea hs, execute_storeWord_ok hr hea hs⟩

/-! ### The frame of the stores, and a load of the word stored -/

section StoreThenLoad
variable {i j : Instr} {s t : State} {a : Word} {rs rd : RegField}

/-- All a store can do: take a fault, or write the value register to a valid address and leave everything else. -/
theorem exec_store_cases (h : i.storeAddress s = some (a, rs)) (he : exec i s = .next t) :
    (∃ r, t = s.raise r) ∨ s.status = .running ∧ validData s.params a ∧
      ∃ hs : rs.toNat < 8, t = s.setMem (s.mem.setWord a.toNat s.regs[rs.toNat]) := by
  obtain ⟨ea, hea, hex⟩ := exec_of_storeAddress h
  obtain ⟨hr, hb | ⟨r, -, rfl⟩⟩ := execute_next_cases (hex ▸ he)
  · obtain ⟨a', ha', hv, hs, rfl⟩ := storeWord_eq_ok.1 hb
    cases hea.symm.trans ha'
    exact .inr ⟨hr, (valid_data_iff ..).1 hv, hs, rfl⟩
  · exact .inl ⟨r, rfl⟩

/-- An instruction with a load address and a destination is a load: its execute phase is the load of `rd` from there. -/
theorem exec_of_loadAddress (h : j.loadAddress s = some a) (hw : j.written = some rd) :
    ∃ ea : State → Except Stop Word, ea s = .ok a ∧ exec j s = execute (loadWord ea rd) s := by
  cases j
  case ldOff | ldIdx =>
    cases hw
    exact ⟨_, except_toOption_eq_some.1 h, rfl⟩
  all_goals cases h

end StoreThenLoad

/-- Settles O37: a fault leaves memory as it was, and a store that completes is one word write. -/
theorem storeFrame : Obligations.StoreFrame := by
  intro i s t a rs ha he
  obtain ⟨r, rfl⟩ | ⟨hr, -, hs, rfl⟩ := exec_store_cases ha he
  case inl => exact ⟨rfl, rfl, rfl, rfl, rfl, fun _ _ => rfl, fun h => by simp at h, fun _ => rfl⟩
  case inr =>
    exact ⟨rfl, rfl, rfl, rfl, rfl, fun _ hb => Memory.byte_setWord_frame _ _ hb,
      fun _ => ⟨hs, Memory.word_setWord_same ..⟩, fun h => absurd hr h⟩

/-- Settles O40: the store found the address valid, so the load does too, and it reads the word just written. -/
theorem storeThenLoadReturnsValue : Obligations.StoreThenLoadReturnsValue := by
  intro i j s t a rs rd hs hd ha he ht hload hw
  obtain ⟨r, rfl⟩ | ⟨-, hv, _, rfl⟩ := exec_store_cases ha he
  case inl => simp at ht
  case inr =>
    obtain ⟨ea, hea, hex⟩ := exec_of_loadAddress hload hw
    rw [hex, execute_loadWord_ok ht hea hv hd, State.setMem_mem, Memory.word_setWord_same]

end Sys2Proof.Machine
end

section
/-! PROOFS. The statements of 43_alu.md: what each ALU instruction does in every form, and negation in two instructions. -/

namespace Sys2Proof.Machine

/-! ### The word operations in integers -/

/-- Bit by bit, `not` is the distance to the word of all ones (43_alu.md R108). -/
theorem not_eq_ofNat (b : Word) : ~~~b = BitVec.ofNat 32 (4294967295 - b.toNat) := by
  apply BitVec.eq_of_toNat_eq
  rw [BitVec.toNat_not, BitVec.toNat_ofNat]
  omega

/-- A difference of words is the difference of their signed values modulo 2^32 (43_alu.md R106, R107, R109). -/
theorem sub_eq_ofInt (a b : Word) : a - b = BitVec.ofInt 32 (a.toInt - b.toInt) := by
  rw [Int.sub_eq_add_neg, BitVec.ofInt_add, BitVec.ofInt_neg, BitVec.ofInt_toInt, BitVec.ofInt_toInt,
    BitVec.sub_eq_add_neg]

/-! ### What the ALU forms do -/

section AluForms
variable {s : State} {rs rd : RegField}

/-- `mov` is the two-operand form that gives its first operand: the destination it need not read faults alike when it is
written. -/
theorem aluMove_eq_aluBinary : aluMove rs rd = aluBinary (fun a _ => a) rs rd := by
  funext s
  obtain ⟨hd, hget⟩ | ⟨hd, hget⟩ := rfGet_cases rd s
  · simp only [aluMove, aluBinary, hget, ok_bind]
  · simp only [aluMove, aluBinary, hget, error_bind, rfSet_error hd]

theorem aluBinary_error (f : Word → Word → Word) (h : 8 ≤ rs.toNat ∨ 8 ≤ rd.toNat) :
    aluBinary f rs rd s = .error (.raise .registerRangeError) := by
  obtain ⟨hs, hget⟩ | ⟨-, hget⟩ := rfGet_cases rs s
  · rw [aluBinary, hget, ok_bind, rfGet_error (h.resolve_left (Nat.not_le.2 hs)), error_bind]
  · rw [aluBinary, hget, error_bind]

theorem aluUnary_error (f : Word → Word) (h : 8 ≤ rd.toNat) :
    aluUnary f rd s = .error (.raise .registerRangeError) := by
  rw [aluUnary, rfGet_error h, error_bind]

theorem execute_aluUnary_ok (f : Word → Word) (hr : s.status = .running) (hd : rd.toNat < 8) :
    execute (aluUnary f rd) s = .next (s.setReg rd.toNat (f s.regs[rd.toNat]) hd) :=
  execute_ok hr (aluUnary_eq_ok.2 ⟨hd, rfl⟩)

end AluForms

/-- A second write of a register leaves nothing of the first. -/
theorem State.setReg_setReg (s : State) {i : Nat} (h : i < 8) (v w : Word) :
    (s.setReg i v h).setReg i w h = s.setReg i w h := by
  simp only [State.setReg, Vector.set_set]

/-! ### The rules -/

/-- The bytes of a 2-byte encoding decode to its instruction. -/
theorem decode_of_encode_eq {i : Instr} {b0 b1 : Byte} (hwf : i.wf = true) (h : encode i = [b0, b1]) (rest : List Byte) :
    decode (b0 :: b1 :: rest) = .ok (i, rest) := by
  have hrt := decodeInvertsEncode i rest hwf
  rwa [h] at hrt

/-- An instruction obeys the two-register rule when its encoding is the rule's and its meaning is the two-operand form of
the rule's function. -/
theorem twoRegisterRule_of_aluBinary {op : RegField → RegField → Instr} {b0 : Byte} {f g : Word → Word → Word}
    (hwf : ∀ rs rd, (op rs rd).wf = true) (hencode : ∀ rs rd, encode (op rs rd) = [b0, packNibbles rs rd])
    (hexec : ∀ rs rd s, exec (op rs rd) s = execute (aluBinary f rs rd) s) (hfg : ∀ a b, f a b = g a b) :
    twoRegisterRule op b0 g := by
  intro rs rd s hr
  refine ⟨decode_of_encode_eq (hwf rs rd) (hencode rs rd), fun hs hd => ?_, fun h => ?_⟩
  · rw [hexec, ← hfg]
    exact execute_ok hr (aluBinary_eq_ok.2 ⟨hs, hd, rfl⟩)
  · rw [hexec]
    exact execute_raise hr (aluBinary_error f h)

/-- An instruction obeys the one-register rule when its encoding is the rule's and its meaning is the one-operand form of
the rule's function. -/
theorem oneRegisterRule_of_aluUnary {op : Nibble → RegField → Instr} {b0 : Byte} {f g : Word → Word}
    (hwf : ∀ pad rd, (op pad rd).wf = true) (hencode : ∀ pad rd, encode (op pad rd) = [b0, packNibbles pad rd])
    (hexec : ∀ pad rd s, exec (op pad rd) s = execute (aluUnary f rd) s) (hfg : ∀ b, f b = g b) :
    oneRegisterRule op b0 g := by
  intro pad rd s hr
  refine ⟨decode_of_encode_eq (hwf pad rd) (hencode pad rd), fun hd => ?_, fun h => ?_⟩
  · rw [hexec, ← hfg]
    exact execute_aluUnary_ok f hr hd
  · rw [hexec]
    exact execute_raise hr (aluUnary_error f h)

/-- Settles O18: the encodings by the round trip, the meanings as two-operand forms; `mov` is one as well. -/
theorem twoRegisterAluResults : Obligations.TwoRegisterAluResults := by
  refine ⟨?mov, ?add, ?and⟩
  case mov =>
    exact twoRegisterRule_of_aluBinary (fun _ _ => rfl) (fun _ _ => rfl)
      (fun _ _ _ => aluMove_eq_aluBinary ▸ exec_mov ..) (fun _ _ => rfl)
  case add =>
    exact twoRegisterRule_of_aluBinary (fun _ _ => rfl) (fun _ _ => rfl)
      (fun _ _ _ => exec_add ..) BitVec.add_def
  case and =>
    exact twoRegisterRule_of_aluBinary (fun _ _ => rfl) (fun _ _ => rfl)
      (fun _ _ _ => exec_and ..) (fun _ _ => rfl)

/-- Settles O19: the encodings by the round trip, the meanings as one-operand forms, their functions in integers. -/
theorem oneRegisterAluResults : Obligations.OneRegisterAluResults := by
  refine ⟨?inc, ?inca, ?dec, ?deca, ?not⟩
  case inc =>
    exact oneRegisterRule_of_aluUnary (fun _ _ => rfl) (fun _ _ => rfl)
      (fun _ _ _ => exec_inc ..) (BitVec.add_def · 1#32)
  case inca =>
    exact oneRegisterRule_of_aluUnary (fun _ _ => rfl) (fun _ _ => rfl)
      (fun _ _ _ => exec_inca ..) (BitVec.add_def · 4#32)
  case dec =>
    exact oneRegisterRule_of_aluUnary (fun _ _ => rfl) (fun _ _ => rfl)
      (fun _ _ _ => exec_dec ..) (sub_eq_ofInt · 1#32)
  case deca =>
    exact oneRegisterRule_of_aluUnary (fun _ _ => rfl) (fun _ _ => rfl)
      (fun _ _ _ => exec_deca ..) (sub_eq_ofInt · 4#32)
  case not =>
    exact oneRegisterRule_of_aluUnary (fun _ _ => rfl) (fun _ _ => rfl)
      (fun _ _ _ => exec_not ..) not_eq_ofNat

/-! ### Negation -/

/-- Settles O20: the second write replaces the first, and the complement plus one is the negation. -/
theorem notThenIncNegates : Obligations.NotThenIncNegates := by
  intro p p' rd hd s hr
  refine ⟨s.setReg rd.toNat (~~~s.regs[rd.toNat]) hd, (exec_not s p rd).trans (execute_aluUnary_ok _ hr hd), ?_⟩
  rw [exec_inc, execute_aluUnary_ok _ ((State.setReg_status ..).trans hr) hd, State.setReg_setReg, State.setReg_regs,
    Vector.getElem_set_self, ← BitVec.neg_eq_not_add, BitVec.ofInt_neg, BitVec.ofInt_toInt]
  rfl

end Sys2Proof.Machine
end

section
/-! PROOFS. The statements of 44_shift.md: what a shift does for counts within the word, and beyond it under each
SHIFT_RULE. -/

namespace Sys2Proof.Machine

/-! ### The shifts in integers -/

/-- A left shift is the product by a power of two modulo 2^32 (44_shift.md R117). -/
theorem shl32_eq_ofNat (v : Word) (k : Nat) : shl32 v k = BitVec.ofNat 32 (v.toNat * 2 ^ k) := by
  rw [← Nat.shiftLeft_eq]
  rfl

/-- A right shift rounds the signed quotient toward minus infinity (44_shift.md R117). -/
theorem asr32_eq_ofInt (v : Word) (k : Nat) : asr32 v k = BitVec.ofInt 32 (v.toInt / 2 ^ k) := by
  rw [asr32, BitVec.sshiftRight_eq, Int.shiftRight_eq_div_pow, Nat.cast_pow]
  rfl

/-! ### The two shifts by their count -/

section Counts
variable {k : Nat} (rule : ShiftRule) (v : Word)

theorem shiftLeftBy_of_lt (h : k < 32) : shiftLeftBy rule v k = some (BitVec.ofNat 32 (v.toNat * 2 ^ k)) := by
  simp only [shiftLeftBy, if_pos h, shl32_eq_ofNat]

theorem shiftRightBy_of_lt (h : k < 32) : shiftRightBy rule v k = some (BitVec.ofInt 32 (v.toInt / 2 ^ k)) := by
  simp only [shiftRightBy, if_pos h, asr32_eq_ofInt]

theorem shiftLeftBy_mod32 (h : 32 ≤ k) :
    shiftLeftBy .mod32 v k = some (BitVec.ofNat 32 (v.toNat * 2 ^ (k % 32))) := by
  simp only [shiftLeftBy, if_neg (Nat.not_lt.2 h), shl32_eq_ofNat]

theorem shiftRightBy_mod32 (h : 32 ≤ k) :
    shiftRightBy .mod32 v k = some (BitVec.ofInt 32 (v.toInt / 2 ^ (k % 32))) := by
  simp only [shiftRightBy, if_neg (Nat.not_lt.2 h), asr32_eq_ofInt]

theorem shiftLeftBy_saturate (h : 32 ≤ k) : shiftLeftBy .saturate v k = some 0#32 :=
  if_neg (Nat.not_lt.2 h)

/-- Only copies of the sign bit are left, and the sign bit says whether the value is negative. -/
theorem shiftRightBy_saturate (h : 32 ≤ k) :
    shiftRightBy .saturate v k = some (if v.toInt < 0 then 0xFFFFFFFF#32 else 0#32) := by
  simp only [shiftRightBy, if_neg (Nat.not_lt.2 h), BitVec.msb_eq_toInt, decide_eq_true_eq]

theorem shiftLeftBy_refuse (h : 32 ≤ k) : shiftLeftBy .refuse v k = none :=
  if_neg (Nat.not_lt.2 h)

theorem shiftRightBy_refuse (h : 32 ≤ k) : shiftRightBy .refuse v k = none :=
  if_neg (Nat.not_lt.2 h)

end Counts

/-! ### The direction -/

section Direction
variable {amount : BitVec 8} (rule : ShiftRule) (v : Word)

/-- A positive immediate is the count of a left shift (44_shift.md R116). -/
theorem shiftResult_of_pos (h : 0 < amount.toInt) :
    shiftResult rule amount v = shiftLeftBy rule v amount.toInt.toNat := by
  have hcount : shiftCount amount = amount.toInt.toNat := by
    unfold shiftCount
    omega
  have hleft : shiftsLeft amount = true := decide_eq_true h
  rw [shiftResult, if_pos hleft, hcount]

/-- Any other immediate, negated in integers, is the count of a right shift (44_shift.md R116, R119). -/
theorem shiftResult_of_nonpos (h : amount.toInt ≤ 0) :
    shiftResult rule amount v = shiftRightBy rule v (-amount.toInt).toNat := by
  have hcount : shiftCount amount = (-amount.toInt).toNat := by
    unfold shiftCount
    omega
  have hright : ¬ shiftsLeft amount = true := fun hl => absurd (of_decide_eq_true hl) (Int.not_lt.2 h)
  rw [shiftResult, if_neg hright, hcount]

end Direction

/-! ### The instruction -/

/-- An execute phase whose body the model gives no meaning answers that refusal, not a state (44_shift.md R118). -/
theorem execute_refuse {body : State → Except Stop State} {s : State} {q : Refusal} (hr : s.status = .running)
    (h : body s = .error (.refuse q)) : execute body s = .refused q := by
  simp only [execute, hr, h, stopCycle]

section Instruction
variable {s : State} {rd : RegField} {amount : BitVec 8} (hr : s.status = .running)
include hr

theorem exec_shift_field_raise (amount : BitVec 8) (hd : 8 ≤ rd.toNat) :
    exec (.shift rd amount) s = .next (s.raise .registerRangeError) :=
  (exec_shift ..).trans (execute_raise hr (by rw [shiftRegister, rfGet_error hd, error_bind]))

theorem exec_shift_of_some (hd : rd.toNat < 8) {v : Word}
    (h : shiftResult s.params.shiftRule amount s.regs[rd.toNat] = some v) :
    exec (.shift rd amount) s = .next (withReg s rd hd v) :=
  (exec_shift ..).trans (execute_ok hr (shiftRegister_eq_ok.2 ⟨hd, v, h, rfl⟩))

theorem exec_shift_of_none (hd : rd.toNat < 8)
    (h : shiftResult s.params.shiftRule amount s.regs[rd.toNat] = none) :
    exec (.shift rd amount) s = .refused .shiftCountRefused :=
  (exec_shift ..).trans (execute_refuse hr (by simp only [shiftRegister, rfGet_ok hd, ok_bind, h]))

end Instruction

/-- Settles O21: the encoding by the round trip; within the word the result does not ask the rule. -/
theorem shiftWithinWordResult : Obligations.ShiftWithinWordResult := by
  intro rd amount s hr
  refine ⟨decode_of_encode_eq (i := .shift rd amount) rfl rfl, exec_shift_field_raise hr amount,
    fun hd => ⟨?left, ?right⟩⟩
  case left =>
    intro hpos hle
    exact exec_shift_of_some hr hd (by rw [shiftResult_of_pos _ _ hpos, shiftLeftBy_of_lt _ _ (by omega)])
  case right =>
    intro hge hnonpos
    exact exec_shift_of_some hr hd (by rw [shiftResult_of_nonpos _ _ hnonpos, shiftRightBy_of_lt _ _ (by omega)])

/-- Settles O22: the sign of the immediate picks the direction before the rule is asked for the count. -/
theorem shiftBeyondWordResult : Obligations.ShiftBeyondWordResult := by
  intro rd hd amount s hr
  refine ⟨fun hle => ?left, fun hle => ?right⟩
  case left =>
    have hcount : 32 ≤ amount.toInt.toNat := by omega
    have hpos : 0 < amount.toInt := by omega
    refine ⟨fun hrule => ?_, fun hrule => ?_, fun hrule => ?_⟩
    · exact exec_shift_of_some hr hd (by rw [hrule, shiftResult_of_pos _ _ hpos, shiftLeftBy_mod32 _ hcount])
    · exact exec_shift_of_some hr hd (by rw [hrule, shiftResult_of_pos _ _ hpos, shiftLeftBy_saturate _ hcount])
    · exact exec_shift_of_none hr hd (by rw [hrule, shiftResult_of_pos _ _ hpos, shiftLeftBy_refuse _ hcount])
  case right =>
    have hcount : 32 ≤ (-amount.toInt).toNat := by omega
    have hnonpos : amount.toInt ≤ 0 := by omega
    refine ⟨fun hrule => ?_, fun hrule => ?_, fun hrule => ?_⟩
    · exact exec_shift_of_some hr hd (by rw [hrule, shiftResult_of_nonpos _ _ hnonpos, shiftRightBy_mod32 _ hcount])
    · exact exec_shift_of_some hr hd (by rw [hrule, shiftResult_of_nonpos _ _ hnonpos, shiftRightBy_saturate _ hcount])
    · exact exec_shift_of_none hr hd (by rw [hrule, shiftResult_of_nonpos _ _ hnonpos, shiftRightBy_refuse _ hcount])

end Sys2Proof.Machine
end

section
/-! PROOFS. The statements of 45_halt_nop.md: the cycles of `halt`, of the no-ops and of the reserved encodings. -/

namespace Sys2Proof.Machine

variable {s : State}

/-! ### The rows that the latches select -/

section Rows
variable {ir : IR}

/-- Opcode 0xF is decoded by its own selector (45_halt_nop.md R122 to R124). -/
theorem decodeIR_of_opcode_F (h : ir.opcode = 0xF#4) : decodeIR ir = decodeSystem ir := by
  rw [decodeIR, h]
  rfl

/-- The selector 0x0 of opcode 0xF (45_halt_nop.md R122). -/
theorem decodeSystem_of_eq_zero (h : ir.op0 = 0x0#4) : decodeSystem ir = .halt (packNibbles ir.op1 ir.op2) := by
  rw [decodeSystem, h]
  rfl

/-- Every selector of opcode 0xF but 0x0 is a no-op (45_halt_nop.md R123, R124). -/
theorem exec_decodeSystem_of_ne_zero (h : ir.op0 ≠ 0x0#4) (u : State) :
    exec (decodeSystem ir) u = execute (fun s => .ok s) u := by
  unfold decodeSystem
  split
  next h0 => exact absurd h0 h
  next => exact exec_nop ..
  next => exact exec_nopU ..

/-- Latches whose header has no meaning run a row that raises DecodeError (45_halt_nop.md R125 to R127). -/
theorem exec_decodeIR_of_reserved
    (h : ir.opcode.toNat = 5 ∨ (8 ≤ ir.opcode.toNat ∧ ir.opcode.toNat ≤ 14) ∨
      (ir.opcode.toNat = 6 ∧ 8 ≤ ir.op0.toNat))
    (u : State) : exec (decodeIR ir) u = execute raiseDecodeError u := by
  unfold decodeIR
  split
  case h_6 | h_9 | h_10 | h_11 | h_12 | h_13 | h_14 | h_15 => rfl
  case h_7 hop =>
    have h8 : 8 ≤ ir.op0.toNat := by simpa [hop] using h
    rw [decodeAlu_of_eight_le h8, exec_reservedAlu]
  case h_16 =>
    have hop : ir.opcode = 0xF#4 := by apply opcode_eq_F <;> assumption
    simp [hop] at h
  all_goals next hop => simp [hop] at h

end Rows

theorem codeLatches_opcode_toNat (s : State) : (codeLatches s).opcode.toNat = (byte0At s).toNat / 16 := by
  rw [codeLatches_eq, latchFields_opcode, highNibble_toNat]

theorem codeLatches_op0_toNat (s : State) : (codeLatches s).op0.toNat = (byte0At s).toNat % 16 := by
  rw [codeLatches_eq, latchFields_op0, lowNibble_toNat]

theorem codeLatches_opcode_eq_F (h : (byte0At s).toNat / 16 = 15) : (codeLatches s).opcode = 0xF#4 :=
  BitVec.eq_of_toNat_eq ((codeLatches_opcode_toNat s).trans h)

/-! ### The fetch by its length -/

theorem codeReadable_of_not_longAt (hl : ¬ longAt s) (hv : validHeader s.params s.pc) : codeReadable s :=
  ⟨hv, fun h => absurd h hl⟩

theorem fetched_of_not_longAt (hl : ¬ longAt s) : fetched s = { s with ir := codeLatches s, pc := s.pc + 2#32 } := by
  rw [fetched, codeLength_of_not_longAt hl]

theorem fetched_of_longAt (hl : longAt s) : fetched s = { s with ir := codeLatches s, pc := s.pc + 6#32 } := by
  rw [fetched, codeLength, if_pos hl]

/-! ### The meanings and their cycles -/

section Running
variable (hr : s.status = .running)
include hr

theorem exec_halt_of_running (pad : Byte) : exec (.halt pad) s = .next s.signalHalt :=
  (exec_halt ..).trans (execute_ok (body := fun s => .ok s.signalHalt) hr rfl)

theorem execute_raiseDecodeError : execute raiseDecodeError s = .next (s.raise .decodeError) :=
  execute_raise hr rfl

/-- A cycle whose fetch reads `F0 --` signals the halt after the fetch (45_halt_nop.md R122). -/
theorem step_of_halt (hc : codeReadable s) (hb : byte0At s = 0xF0#8) : step s = .next (fetched s).signalHalt := by
  have hop : (codeLatches s).opcode = 0xF#4 := codeLatches_opcode_eq_F (by rw [hb]; rfl)
  have hop0 : (codeLatches s).op0 = 0x0#4 := BitVec.eq_of_toNat_eq (by rw [codeLatches_op0_toNat, hb]; rfl)
  rw [step_of_readable hr hc, decodeIR_of_opcode_F hop, decodeSystem_of_eq_zero hop0]
  exact exec_halt_of_running (s := fetched s) hr _

/-- A cycle whose fetch reads `F1 --` to `FF --` leaves what the fetch leaves (45_halt_nop.md R123, R124). -/
theorem step_of_noOp (hc : codeReadable s) (hb : 0xF1 ≤ (byte0At s).toNat) : step s = .next (fetched s) := by
  have hop : (codeLatches s).opcode = 0xF#4 := codeLatches_opcode_eq_F (by omega)
  have hop0 : (codeLatches s).op0 ≠ 0x0#4 := by
    refine mt (congrArg BitVec.toNat) ?_
    rw [codeLatches_op0_toNat, BitVec.toNat_ofNat]
    omega
  rw [step_of_readable hr hc, decodeIR_of_opcode_F hop, exec_decodeSystem_of_ne_zero hop0]
  exact execute_ok (s := fetched s) hr rfl

/-- A cycle whose fetch reads a reserved encoding raises DecodeError after the fetch (45_halt_nop.md R125 to R127). -/
theorem step_of_reserved (hc : codeReadable s) (hb : reservedByte0 (byte0At s)) :
    step s = .next ((fetched s).raise .decodeError) := by
  have hir := hb
  rw [reservedByte0, ← codeLatches_opcode_toNat, ← codeLatches_op0_toNat] at hir
  rw [step_of_readable hr hc, exec_decodeIR_of_reserved hir]
  exact execute_raiseDecodeError (s := fetched s) hr

end Running

/-- Settles O23: the header alone is fetched, and `halt` changes STATUS alone. -/
theorem haltCycle : Obligations.HaltCycle := by
  refine ⟨fun s hr hv hb => ?_, fun pad s hr => exec_halt_of_running hr pad⟩
  have hl : ¬ longAt s := by rw [longAt, hb]; decide
  rw [step_of_halt hr (codeReadable_of_not_longAt hl hv) hb, fetched_of_not_longAt hl]
  rfl

/-- Settles O24: the header alone is fetched, and the execute phase of a no-op changes nothing. -/
theorem noOpCycle : Obligations.NoOpCycle := by
  refine ⟨fun s hr hv hb => ?_, fun k pad s hr => ⟨?nop, ?nopU⟩⟩
  · have hl : ¬ longAt s := by unfold longAt; omega
    rw [step_of_noOp hr (codeReadable_of_not_longAt hl hv) hb, fetched_of_not_longAt hl]
  case nop => exact (exec_nop ..).trans (execute_ok hr rfl)
  case nopU => exact (exec_nopU ..).trans (execute_ok hr rfl)

/-- Settles O25: but for opcode 0xB, which is 6 bytes long, a reserved encoding is a header alone. -/
theorem reservedEncodingCycle : Obligations.ReservedEncodingCycle := by
  refine ⟨fun s hr hv hb hB => ?_, fun n b i s hr hi => ?_⟩
  · have hl : ¬ longAt s := by unfold longAt; omega
    rw [step_of_reserved hr (codeReadable_of_not_longAt hl hv) hb, fetched_of_not_longAt hl]
    rfl
  · have hbody : execBody i = raiseDecodeError := by
      simp only [List.mem_cons, List.not_mem_nil, or_false] at hi
      rcases hi with rfl | rfl | rfl | rfl | rfl | rfl | rfl | rfl <;> rfl
    rw [exec_eq_execute_execBody, hbody]
    exact execute_raiseDecodeError hr

/-- Settles O26: the extension decides whether the fetch succeeds, before the reserved encoding is decoded. -/
theorem opcodeBCycle : Obligations.OpcodeBCycle := by
  refine ⟨fun s hr hv hb => ⟨fun hx => ?_, fun hx => ?_⟩,
    fun n b e s hr => (exec_reservedB ..).trans (execute_raiseDecodeError hr)⟩
  · have hres : reservedByte0 (byte0At s) := .inr (.inl (by omega))
    rw [step_of_reserved hr ⟨hv, fun _ => hx⟩ hres, fetched_of_longAt (.inr hb)]
    rfl
  · have hc : ¬ codeReadable s := fun hc => hx (hc.2 (.inr hb))
    exact ⟨_, step_of_not_readable hr hc, State.raise_status .., (State.raise_pc ..).trans (fetchFailed_pc ..)⟩

end Sys2Proof.Machine
end

section
/-! PROOFS. The statements of 60_exceptions.md: what raises the halt and each fault, what a raised fault leaves, and that the
run is then over. -/

namespace Sys2Proof.Machine

/-! ### Halted and Faulted are terminal -/

section Terminal
variable {body : State → Except Stop State} {s : State} {r : Fault}

theorem execute_of_halted (h : s.status = .halted) : execute body s = .refused .cycleAfterHalt := by
  rw [execute, h]

theorem execute_of_faulted (h : s.status = .faulted r) : execute body s = .refused (.cycleAfterFault r) := by
  rw [execute, h]

theorem step_of_halted (h : s.status = .halted) : step s = .refused .cycleAfterHalt := by
  rw [step, h]

theorem step_of_faulted (h : s.status = .faulted r) : step s = .refused (.cycleAfterFault r) := by
  rw [step, h]

end Terminal

/-- Settles O32: a cycle looks at STATUS first, and so does the frame that every execute phase shares. -/
theorem terminalStatesHaveNoCycle : Obligations.TerminalStatesHaveNoCycle := by
  intro s i
  rw [exec_eq_execute_execBody]
  exact ⟨fun h => ⟨step_of_halted h, execute_of_halted h⟩, fun _ h => ⟨step_of_faulted h, execute_of_faulted h⟩⟩

/-! ### What a raised fault leaves -/

section Faulted
variable {i : Instr} {s t : State} {r : Fault}

/-- A body that completes keeps STATUS, or signals the halt: it is the frame of the execute phase that takes a fault. -/
theorem execBody_ok_status (h : execBody i s = .ok t) : t.status = s.status ∨ t.status = .halted := by
  cases i
  case ldImm => obtain ⟨_, rfl⟩ := rfSet_eq_ok.1 h; exact .inl rfl
  case ldOff | ldIdx => obtain ⟨_, -, -, _, rfl⟩ := loadWord_eq_ok.1 h; exact .inl rfl
  case stOff | stIdx => obtain ⟨_, -, -, _, rfl⟩ := storeWord_eq_ok.1 h; exact .inl rfl
  case mov => obtain ⟨_, _, rfl⟩ := aluMove_eq_ok.1 h; exact .inl rfl
  case add | and => obtain ⟨_, _, rfl⟩ := aluBinary_eq_ok.1 h; exact .inl rfl
  case inc | inca | dec | deca | not => obtain ⟨_, rfl⟩ := aluUnary_eq_ok.1 h; exact .inl rfl
  case shift => obtain ⟨_, _, -, rfl⟩ := shiftRegister_eq_ok.1 h; exact .inl rfl
  case halt => cases h; exact .inr rfl
  case nop | nopU => cases h; exact .inl rfl
  all_goals cases h

/-- An execute phase that ends Faulted has a body that raised, and leaves the state it began with but for STATUS
(60_exceptions.md R134). -/
theorem exec_faulted (h : exec i s = .next t) (ht : t.status = .faulted r) :
    execBody i s = .error (.raise r) ∧ t = s.raise r := by
  rw [exec_eq_execute_execBody] at h
  obtain ⟨hr, hb | ⟨r', hb, rfl⟩⟩ := execute_next_cases h
  · have hs := execBody_ok_status hb
    simp [ht, hr] at hs
  · cases ht
    exact ⟨hb, rfl⟩

/-- A cycle that ends Faulted failed in its fetch, by AddressError, or raised the fault in its execute phase
(60_exceptions.md R134). -/
theorem step_faulted_cases (h : step s = .next t) (ht : t.status = .faulted r) :
    ¬ codeReadable s ∧ r = .addressError ∧ t = (fetchFailed s).raise .addressError ∨
      codeReadable s ∧ t = (fetched s).raise r ∧ exec (decodeIR (codeLatches s)) (fetched s) = .next t := by
  obtain ⟨-, ⟨hc, rfl⟩ | ⟨hc, he⟩⟩ := step_next_code h
  · cases ht
    exact .inl ⟨hc, rfl, rfl⟩
  · exact .inr ⟨hc, (exec_faulted he ht).2, he⟩

end Faulted

/-- Settles O31: the execute phase leaves `State.raise` of the state it began with, a failed fetch that of `fetchFailed`. -/
theorem raiseChangesOnlyStatus : Obligations.RaiseChangesOnlyStatus := by
  refine ⟨fun i s t r h ht => (exec_faulted h ht).2, fun s t e hf h => ?_⟩
  obtain ⟨-, ⟨-, rfl⟩ | ⟨s', hok, -⟩⟩ := step_next_cases h
  · simp
  · cases hf.symm.trans hok

/-! ### The bytes of the instruction that a cycle runs -/

section CodeBytes
variable (s : State)

/-- Encoding the instruction in the latches gives the bytes at the PC back. -/
theorem encode_decodeIR_codeLatches : encode (decodeIR (codeLatches s)) = codeBytes s := by
  obtain ⟨-, h⟩ := encodeInvertsDecode _ _ _ (decode_codeBytes s)
  rwa [List.append_nil] at h

theorem codeBytes_length : (codeBytes s).length = codeLength s := by
  unfold codeBytes codeLength
  split <;> rfl

theorem codeBytes_head? : (codeBytes s).head? = some (byte0At s) := by
  unfold codeBytes
  split <;> rfl

end CodeBytes

/-! ### The halt -/

section Halt
variable {i : Instr} {s t : State}

/-- Of all execute phases only that of `halt` ends Halted (60_exceptions.md R133). -/
theorem exec_halted (h : exec i s = .next t) (ht : t.status = .halted) : ∃ pad, i = .halt pad := by
  have hr := exec_next_running h
  obtain ⟨r, rfl⟩ | ⟨f, hf, v, -, rfl⟩ | ⟨a, f, hf, -, -, rfl⟩ | ⟨-, rfl | ⟨hi, -⟩⟩ := exec_next_cases h
  case inr.inr.inr.inr => exact hi
  all_goals simp [hr] at ht

/-- A cycle that ends Halted fetched `F0 --` (60_exceptions.md R133). -/
theorem byte0At_of_step_halted (h : step s = .next t) (ht : t.status = .halted) :
    codeReadable s ∧ byte0At s = 0xF0#8 := by
  obtain ⟨-, ⟨-, rfl⟩ | ⟨hc, he⟩⟩ := step_next_code h
  · simp at ht
  · obtain ⟨pad, hi⟩ := exec_halted he ht
    have hhead := codeBytes_head? s
    rw [← encode_decodeIR_codeLatches, hi] at hhead
    exact ⟨hc, (Option.some.inj hhead).symm⟩

end Halt

/-- Settles O27: only `halt` ends Halted, its encoding begins with 0xF0, and such a cycle is `step_of_halt`. -/
theorem haltSignalFromHaltOnly : Obligations.HaltSignalFromHaltOnly := by
  intro s t h
  have hr := (step_next_code h).1
  refine ⟨⟨byte0At_of_step_halted h, fun ⟨hc, hb⟩ => ?_⟩, fun ht => ?_⟩
  · cases h.symm.trans (step_of_halt hr hc hb)
    exact State.signalHalt_status _
  · obtain ⟨hc, hb⟩ := byte0At_of_step_halted h ht
    have hl : ¬ longAt s := by rw [longAt, hb]; decide
    cases h.symm.trans (step_of_halt hr hc hb)
    rw [fetched_of_not_longAt hl]
    exact ⟨rfl, rfl, rfl⟩

/-! ### DecodeError -/

section DecodeError
variable {i : Instr} {s : State} {b0 : Byte} {rest : List Byte}

/-- The reserved encodings by the nibbles of byte0 (60_exceptions.md R132). -/
theorem reservedByte0_packNibbles (opcode op0 : Nibble) :
    reservedByte0 (packNibbles opcode op0) ↔
      opcode.toNat = 5 ∨ (8 ≤ opcode.toNat ∧ opcode.toNat ≤ 14) ∨ (opcode.toNat = 6 ∧ 8 ≤ op0.toNat) := by
  rw [reservedByte0, ← highNibble_toNat, ← lowNibble_toNat, highNibble_packNibbles, lowNibble_packNibbles]

/-- The one fault of a shift is that of its register field (44_shift.md R116). -/
theorem shiftRegister_eq_raise {rd : RegField} {amount : BitVec 8} {r : Fault} :
    shiftRegister rd amount s = .error (.raise r) ↔ 8 ≤ rd.toNat ∧ r = .registerRangeError := by
  obtain ⟨hd, hget⟩ | ⟨hd, hget⟩ := rfGet_cases rd s
  · rw [shiftRegister, hget, ok_bind]
    cases shiftResult s.params.shiftRule amount s.regs[rd.toNat] with
    | some v => simp [rfSet_ok hd, hd]
    | none => simp [hd]
  · simp [shiftRegister, hget, hd, eq_comm]

/-- A well-formed instruction whose body raises DecodeError is one of the reserved rows, with a reserved byte0
(60_exceptions.md R132): every other body raises by a register field or an address. -/
theorem reservedByte0_of_execBody (hwf : i.wf = true) (he : (encode i).head? = some b0)
    (h : execBody i s = .error (.raise .decodeError)) : reservedByte0 b0 := by
  cases i
  case reserved5 | reserved8 | reserved9 | reservedA | reservedB | reservedC | reservedD | reservedE =>
    cases he
    simp [reservedByte0_packNibbles]
  case reservedAlu =>
    cases he
    simpa [reservedByte0_packNibbles, Instr.wf] using hwf
  case ldImm => cases (rfSet_eq_error.1 h).2
  case ldOff | ldIdx =>
    simp [execBody, loadWord, bind_eq_error, eaOffset_eq_error, eaIndexed_eq_error, mpReadWord_eq_error,
      rfSet_eq_error] at h
  case stOff | stIdx =>
    simp [execBody, storeWord, bind_eq_error, eaOffset_eq_error, eaIndexed_eq_error, rfGet_eq_error,
      mpWriteWord_eq_error] at h
  case mov | add | and | inc | inca | dec | deca | not =>
    simp [execBody, aluMove, aluBinary, aluUnary, bind_eq_error, rfGet_eq_error, rfSet_eq_error] at h
  case shift => cases (shiftRegister_eq_raise.1 h).2
  case halt | nop | nopU => cases h

/-- A cycle that ends in DecodeError fetched a reserved encoding (60_exceptions.md R132). -/
theorem reservedByte0_of_step {t : State} (h : step s = .next t) (ht : t.status = .faulted .decodeError) :
    codeReadable s ∧ reservedByte0 (byte0At s) := by
  obtain ⟨-, hr, -⟩ | ⟨hc, -, he⟩ := step_faulted_cases h ht
  · cases hr
  · have hhead : (encode (decodeIR (codeLatches s))).head? = some (byte0At s) := by
      rw [encode_decodeIR_codeLatches, codeBytes_head?]
    exact ⟨hc, reservedByte0_of_execBody (decodeIR_wf _) hhead (exec_faulted he ht).1⟩

end DecodeError

/-- Settles O28: only the reserved rows raise DecodeError, and such a cycle is `step_of_reserved`. -/
theorem decodeErrorExactlyOnReserved : Obligations.DecodeErrorExactlyOnReserved := by
  intro s t h
  have hr := (step_next_code h).1
  refine ⟨⟨reservedByte0_of_step h, fun ⟨hc, hb⟩ => ?_⟩, fun ht => ?_⟩
  · cases h.symm.trans (step_of_reserved hr hc hb)
    exact State.raise_status ..
  · obtain ⟨hc, hb⟩ := reservedByte0_of_step h ht
    cases h.symm.trans (step_of_reserved hr hc hb)
    exact ⟨rfl, rfl, rfl⟩

/-! ### AddressError -/

/-- The address `a` is the one that the load or store `i` computes in `s`. -/
abbrev accesses (i : Instr) (s : State) (a : Word) : Prop :=
  i.loadAddress s = some a ∨ ∃ f, i.storeAddress s = some (a, f)

section AddressError
variable {i : Instr} {s : State} {a : Word}

/-- The fetch leaves the registers, so it leaves the address that an instruction computes. -/
theorem accesses_fetched : accesses i (fetched s) a ↔ accesses i s a := by
  cases i <;> rfl

/-- The loads and stores with an address are 2 bytes long (42_load_store.md R91 to R94). -/
theorem encode_length_of_accesses (h : accesses i s a) : (encode i).length = 2 := by
  cases i
  case ldOff | ldIdx | stOff | stIdx => rfl
  all_goals obtain h | ⟨f, h⟩ := h <;> cases h

theorem written_of_loadAddress (h : i.loadAddress s = some a) : ∃ rd, i.written = some rd := by
  cases i
  case ldOff | ldIdx => exact ⟨_, rfl⟩
  all_goals cases h

theorem mem_usedFields_of_storeAddress {rs : RegField} (h : i.storeAddress s = some (a, rs)) : rs ∈ i.usedFields := by
  cases i <;> simp only [Instr.storeAddress, reduceCtorEq, Option.map_eq_some_iff, Prod.mk.injEq] at h
  case stOff | stIdx =>
    obtain ⟨a', -, -, rfl⟩ := h
    simp [Instr.usedFields, Instr.readFields]

/-- With every register field in range, a load or store to an invalid address raises AddressError (60_exceptions.md R135). -/
theorem exec_of_accesses_invalid (hr : s.status = .running) (hv : ¬ validData s.params a)
    (hfields : ∀ f ∈ i.usedFields, f.toNat < 8) (h : accesses i s a) : exec i s = .next (s.raise .addressError) := by
  obtain hload | ⟨rs, hstore⟩ := h
  · obtain ⟨rd, hw⟩ := written_of_loadAddress hload
    obtain ⟨ea, hea, hex⟩ := exec_of_loadAddress hload hw
    exact hex.trans (execute_loadWord_invalid hr hea hv)
  · obtain ⟨ea, hea, hex⟩ := exec_of_storeAddress hstore
    exact hex.trans (execute_storeWord_invalid hr hea (hfields rs (mem_usedFields_of_storeAddress hstore)) hv)

/-- An AddressError of the execute phase is of the address that the load or store computes (60_exceptions.md R135). -/
theorem exec_addressError {t : State} (h : exec i s = .next t) (ht : t.status = .faulted .addressError) :
    ∃ a, ¬ validData s.params a ∧ accesses i s a := by
  obtain ⟨hr, -⟩ | ⟨hr, -⟩ | ⟨-, hcause⟩ := exec_fault_cases h ht
  · cases hr
  · cases hr
  · exact hcause

end AddressError

/-- Settles O29: a faulted cycle failed in one phase or the other; the causes of the execute phase are the loads and stores,
which are 2 bytes long. -/
theorem addressErrorPoints : Obligations.AddressErrorPoints := by
  refine ⟨fun s t h ht => ?_, fun s hr hc => ⟨_, step_of_not_readable hr hc, State.raise_status ..⟩,
    fun i s a hr hv hfields h => exec_of_accesses_invalid hr hv hfields h⟩
  obtain ⟨hc, -, rfl⟩ | ⟨hc, rfl, he⟩ := step_faulted_cases h ht
  · exact ⟨rfl, rfl, .inl ⟨hc, rfl⟩⟩
  · obtain ⟨a, hv, ha⟩ := exec_addressError he ht
    rw [accesses_fetched] at ha
    have hlen : codeLength s = 2 := by
      rw [← codeBytes_length, ← encode_decodeIR_codeLatches, encode_length_of_accesses ha]
    refine ⟨rfl, rfl, .inr ⟨hc, ?_, _, a, decode_codeBytes s, hv, ha⟩⟩
    rw [State.raise_pc, fetched, hlen]

/-! ### RegisterRangeError -/

section RegisterRangeError
variable {i : Instr} {s t : State}

/-- A RegisterRangeError of the execute phase is of a field above 7 (60_exceptions.md R137). -/
theorem exec_registerRangeError (h : exec i s = .next t) (ht : t.status = .faulted .registerRangeError) :
    ∃ f ∈ i.usedFields, 8 ≤ f.toNat := by
  obtain ⟨hr, -⟩ | ⟨-, hcause⟩ | ⟨hr, -⟩ := exec_fault_cases h ht
  · cases hr
  · exact hcause
  · cases hr

/-- A load with a field above 7 raises RegisterRangeError, or AddressError of an address it could compute, which is checked
before its destination (60_exceptions.md R136; 92_eei_decisions.md D11). -/
theorem execute_loadWord_field_raise {ea : State → Except Stop Word} {rd : RegField} (hr : s.status = .running)
    {addressFields : Prop} (hea : ∀ e, ea s = .error e ↔ addressFields ∧ e = .raise .registerRangeError)
    (h : addressFields ∨ 8 ≤ rd.toNat) :
    execute (loadWord ea rd) s = .next (s.raise .registerRangeError) ∨
      execute (loadWord ea rd) s = .next (s.raise .addressError) ∧ ∃ a, ¬ validData s.params a ∧ ea s = .ok a := by
  cases ha : ea s with
  | error e =>
    obtain ⟨-, rfl⟩ := (hea e).1 ha
    exact .inl (execute_loadWord_address_raise hr ha)
  | ok a =>
    have hin : ¬ addressFields := fun h => by cases ha.symm.trans ((hea _).2 ⟨h, rfl⟩)
    by_cases hv : validData s.params a
    · exact .inl (execute_loadWord_destination_raise hr ha hv (h.resolve_left hin))
    · exact .inr ⟨execute_loadWord_invalid hr ha hv, a, hv, rfl⟩

/-- An instruction that uses a field above 7 as a register index raises RegisterRangeError, or AddressError of an address it
could compute (60_exceptions.md R137). -/
theorem exec_of_field_above (hr : s.status = .running) (h : ∃ f ∈ i.usedFields, 8 ≤ f.toNat) :
    exec i s = .next (s.raise .registerRangeError) ∨
      exec i s = .next (s.raise .addressError) ∧ ∃ a, ¬ validData s.params a ∧ accesses i s a := by
  cases i <;> simp only [Instr.usedFields, Instr.readFields, Instr.written, Option.toList, List.append_nil, List.nil_append,
    List.cons_append, List.exists_mem_cons_iff, List.not_mem_nil, false_and, exists_false, or_false, or_self] at h
  case ldImm => exact .inl (execute_raise hr (rfSet_error h))
  case ldOff =>
    obtain hraise | ⟨hraise, a, hv, ha⟩ := execute_loadWord_field_raise hr (fun _ => eaOffset_eq_error) h
    · exact .inl hraise
    · exact .inr ⟨hraise, a, hv, .inl (except_toOption_eq_some.2 ha)⟩
  case ldIdx =>
    obtain hraise | ⟨hraise, a, hv, ha⟩ :=
      execute_loadWord_field_raise hr (fun _ => eaIndexed_eq_error) (or_assoc.2 h)
    · exact .inl hraise
    · exact .inr ⟨hraise, a, hv, .inl (except_toOption_eq_some.2 ha)⟩
  case stOff => exact .inl (execute_storeWord_field_raise hr (fun _ => eaOffset_eq_error) h)
  case stIdx => exact .inl (execute_storeWord_field_raise hr (fun _ => eaIndexed_eq_error) (or_assoc.2 h))
  case mov => exact .inl (execute_raise hr ((congrFun aluMove_eq_aluBinary s).trans (aluBinary_error _ h)))
  case add | and => exact .inl (execute_raise hr (aluBinary_error _ h))
  case inc | inca | dec | deca | not => exact .inl (execute_raise hr (aluUnary_error _ h))
  case shift => exact .inl (exec_shift_field_raise hr _ h)

end RegisterRangeError

/-- Settles O30: the fetch raises AddressError only, and in the execute phase a field above 7 is the one cause. -/
theorem registerRangeErrorFields : Obligations.RegisterRangeErrorFields := by
  refine ⟨fun s t h ht => ?_, fun i s hr h => exec_of_field_above hr h⟩
  obtain ⟨-, hr, -⟩ | ⟨-, rfl, he⟩ := step_faulted_cases h ht
  · cases hr
  · exact ⟨rfl, rfl, rfl, _, decode_codeBytes s, exec_registerRangeError he ht⟩

end Sys2Proof.Machine
end

section
/-! PROOFS. The statements of 70_reset_and_hazards.md: the invariant after reset and loading, every cycle completes, and every
run ends. -/

namespace Sys2Proof.Machine

/-! ### Reset and the loader keep the invariant -/

section Placing
variable {s : State}

/-- A power-on with legal parameters and a canonical memory of valid addresses meets the invariant
(70_reset_and_hazards.md R150). -/
theorem State.powerOn_inv {p : Params} {m : Memory} (hp : p.legal) (hm : m.wf) (hvalid : ∀ c ∈ m, c.1 < p.memSize)
    (regs : Vector Word 8) (ir : IR) : (State.powerOn p regs ir m).Inv :=
  ⟨hp, hm, hvalid⟩

/-- The outside places a byte at a valid address only (20_memory.md R31). -/
theorem State.Inv.placeByte (h : s.Inv) (a : Nat) (v : Byte) : (s.placeByte a v).Inv := by
  unfold State.placeByte
  split
  next ha =>
    obtain ⟨hlegal, hwf, hvalid⟩ := h
    refine ⟨hlegal, Memory.wf_setByte hwf a v, fun c hc => ?_⟩
    obtain hc | hca := Memory.mem_setByte hc
    · exact hvalid c hc
    · exact hca.trans_lt ha
  next => exact h

theorem State.Inv.placeBytes (h : s.Inv) (a : Nat) (bs : List Byte) : (s.placeBytes a bs).Inv := by
  induction bs generalizing s a with
  | nil => exact h
  | cons v rest ih => exact ih (h.placeByte a v) (a + 1)

end Placing

/-- Settles O43: reset writes neither memory nor the parameters, and the loader places bytes one by one. -/
theorem resetMeetsInvariant : Obligations.ResetMeetsInvariant :=
  ⟨State.powerOn_inv (by decide) Memory.wf_nil (by simp) _ _,
   fun _ regs ir _ hp hm hvalid => State.powerOn_inv hp hm hvalid regs ir,
   fun s regs ir h => h.of_mem_params (s.applyReset_mem regs ir) (s.applyReset_params regs ir),
   fun _ _ _ h => (h.placeBytes _ _).placeBytes _ _⟩

/-! ### Every cycle completes -/

section NoHostFault
variable (s : State) (r : Fault)

/-- What stops a phase is a fault of the hardware, which is a next state, or a refusal (60_exceptions.md R130). -/
theorem stopCycle_ne_fault (e : Stop) : stopCycle e s ≠ .fault r := by
  cases e <;> simp [stopCycle]

theorem exec_ne_fault (i : Instr) : exec i s ≠ .fault r := by
  rw [exec_eq_execute_execBody]
  unfold execute
  split
  · split
    · nofun
    · exact stopCycle_ne_fault s r _
  · nofun
  · nofun

theorem step_ne_fault : step s ≠ .fault r := by
  unfold step
  split
  · split
    next s' _ => exact exec_ne_fault s' r _
    next e _ => exact stopCycle_ne_fault (fetchFailed s) r e
  · nofun
  · nofun

end NoHostFault

section ShiftRefused
variable {i : Instr} {s : State} {rd : RegField} {amount : BitVec 8} {q : Refusal}

/-- A shift within the word has a result under every rule (44_shift.md R117). -/
theorem shiftResult_of_count_lt (h : amount.toInt.natAbs < 32) (rule : ShiftRule) (v : Word) :
    ∃ r, shiftResult rule amount v = some r := by
  by_cases hpos : 0 < amount.toInt
  · exact ⟨_, (shiftResult_of_pos rule v hpos).trans (shiftLeftBy_of_lt rule v (by omega))⟩
  · exact ⟨_, (shiftResult_of_nonpos rule v (by omega)).trans (shiftRightBy_of_lt rule v (by omega))⟩

/-- A shift has no result only by 32 or more under `refuse` (44_shift.md R118). -/
theorem shiftResult_eq_none {rule : ShiftRule} {v : Word} (h : shiftResult rule amount v = none) :
    rule = .refuse ∧ 32 ≤ amount.toInt.natAbs := by
  refine ⟨by_contra fun hrule => ?_, Nat.le_of_not_lt fun hlt => ?_⟩
  · obtain ⟨r, hr⟩ := shiftResult_isSome hrule amount v
    cases h.symm.trans hr
  · obtain ⟨r, hr⟩ := shiftResult_of_count_lt hlt rule v
    cases h.symm.trans hr

theorem shiftRegister_eq_refuse (h : shiftRegister rd amount s = .error (.refuse q)) :
    q = .shiftCountRefused ∧ s.params.shiftRule = .refuse ∧ 32 ≤ amount.toInt.natAbs := by
  obtain hget | ⟨v, -, h⟩ := bind_eq_error.1 h
  · cases (rfGet_eq_error.1 hget).2
  · split at h
    next => cases (rfSet_eq_error.1 h).2
    next hnone =>
      cases h
      exact ⟨rfl, shiftResult_eq_none hnone⟩

/-- Of all instructions only a shift is refused by its own meaning (44_shift.md R118; notes/assumptions/10.md). -/
theorem execBody_eq_refuse (h : execBody i s = .error (.refuse q)) :
    ∃ rd amount, i = .shift rd amount ∧ shiftRegister rd amount s = .error (.refuse q) := by
  cases i
  case shift => exact ⟨_, _, rfl, h⟩
  case ldImm => cases (rfSet_eq_error.1 h).2
  case ldOff | ldIdx =>
    simp [execBody, loadWord, bind_eq_error, eaOffset_eq_error, eaIndexed_eq_error, mpReadWord_eq_error,
      rfSet_eq_error] at h
  case stOff | stIdx =>
    simp [execBody, storeWord, bind_eq_error, eaOffset_eq_error, eaIndexed_eq_error, rfGet_eq_error,
      mpWriteWord_eq_error] at h
  case mov | add | and | inc | inca | dec | deca | not =>
    simp [execBody, aluMove, aluBinary, aluUnary, bind_eq_error, rfGet_eq_error, rfSet_eq_error] at h
  all_goals cases h

/-- The bytes at the PC begin with the header. -/
theorem codeBytes_eq_header_append (s : State) : ∃ rest, codeBytes s = byte0At s :: byte1At s :: rest := by
  unfold codeBytes
  split <;> exact ⟨_, rfl⟩

/-- The latches decode to a shift only when the header at the PC is `7d vv` (44_shift.md R116). -/
theorem header_of_decodeIR_eq_shift (h : decodeIR (codeLatches s) = .shift rd amount) :
    (byte0At s).toNat / 16 = 7 ∧ byte1At s = amount := by
  obtain ⟨rest, hbytes⟩ := codeBytes_eq_header_append s
  rw [← encode_decodeIR_codeLatches, h] at hbytes
  obtain ⟨h0, rfl, -⟩ : packNibbles 0x7#4 rd = byte0At s ∧ amount = byte1At s ∧ [] = rest := by
    simpa [encode, header] using hbytes
  rw [← h0, ← highNibble_toNat, highNibble_packNibbles]
  exact ⟨rfl, rfl⟩

/-- A cycle begun in Running is refused only at a shift by 32 or more under `refuse` (44_shift.md R118). -/
theorem step_refused_of_running (hr : s.status = .running) (h : step s = .refused q) :
    q = .shiftCountRefused ∧ s.params.shiftRule = .refuse ∧ codeReadable s ∧
      (byte0At s).toNat / 16 = 7 ∧ 32 ≤ (byte1At s).toInt.natAbs := by
  obtain ⟨-, hc, he⟩ | ⟨hs, -⟩ | ⟨r, hs, -⟩ := step_refused_cases h
  · rw [exec_eq_execute_execBody] at he
    obtain ⟨-, hb⟩ | ⟨hs, -⟩ | ⟨r, hs, -⟩ := execute_refused_cases he
    · obtain ⟨rd, amount, hi, hshift⟩ := execBody_eq_refuse hb
      obtain ⟨hq, hrule, hcount⟩ := shiftRegister_eq_refuse hshift
      obtain ⟨h0, rfl⟩ := header_of_decodeIR_eq_shift hi
      exact ⟨hq, hrule, hc, h0, hcount⟩
    · cases hr.symm.trans hs
    · cases hr.symm.trans hs
  · cases hr.symm.trans hs
  · cases hr.symm.trans hs

/-- A cycle begun in Running has a next state but for such a shift (70_reset_and_hazards.md R157). -/
theorem step_of_running (hr : s.status = .running) :
    (∃ t, step s = .next t) ∨ step s = .refused .shiftCountRefused ∧ s.params.shiftRule = .refuse ∧ codeReadable s ∧
      (byte0At s).toNat / 16 = 7 ∧ 32 ≤ (byte1At s).toInt.natAbs := by
  cases hstep : step s with
  | next t => exact .inl ⟨t, rfl⟩
  | fault r => exact absurd hstep (step_ne_fault s r)
  | refused q =>
    obtain ⟨rfl, hshift⟩ := step_refused_of_running hr hstep
    exact .inr ⟨rfl, hshift⟩

theorem exists_step_of_running (hr : s.status = .running) (hrule : s.params.shiftRule ≠ .refuse) :
    ∃ t, step s = .next t :=
  (step_of_running hr).resolve_right fun ⟨_, hrefuse, _⟩ => hrule hrefuse

end ShiftRefused

/-- Settles O33: no part of the machine answers a fault of the host's interface, and the one refusal in Running is that of
the shift. -/
theorem everyCycleCompletes : Obligations.EveryCycleCompletes :=
  ⟨fun _ hr hrule => exists_step_of_running hr hrule, fun _ hr => step_of_running hr, step_ne_fault⟩

/-! ### Every run ends -/

section RunEnds
variable {k : Nat} {s t u : State}

/-- A run whose first step answers a next state goes on from there. -/
theorem run_succ_of_step {M : Host.Core} {s u : M.State} (h : M.step s = .next u) (k : Nat) :
    M.run (k + 1) s = M.run k u := by
  rw [Host.Core.run, h]

theorem runsTo_succ (h : step s = .next u) (hk : runsTo k u t) : runsTo (k + 1) s t :=
  (run_succ_of_step (M := core) h k).trans hk

/-- Below 2^32 the code at the PC ends within memory: neither the extension address nor the PC wraps
(40_fetch_unit.md R74, R77). -/
theorem pc_add_codeLength_le_memSize (hsize : s.params.memSize < 4294967296) (hc : codeReadable s) :
    s.pc.toNat + codeLength s ≤ s.params.memSize := by
  obtain ⟨⟨hheader, -⟩, hext⟩ := hc
  unfold codeLength
  split
  next hl =>
    have hend : (s.pc + 2#32).toNat + 4 ≤ s.params.memSize := hext hl
    rw [BitVec.toNat_add, BitVec.toNat_ofNat] at hend
    omega
  next => exact hheader

/-- A cycle that ends Running took the PC at least 2 bytes on, within memory. -/
theorem pc_progress_of_step_running (hsize : s.params.memSize < 4294967296) (h : step s = .next t) (ht : t.status = .running) :
    s.pc.toNat + 2 ≤ t.pc.toNat ∧ t.pc.toNat ≤ s.params.memSize := by
  obtain ⟨-, ⟨-, rfl⟩ | ⟨hc, -⟩⟩ := step_next_code h
  · simp at ht
  · have hend := pc_add_codeLength_le_memSize hsize hc
    rw [step_pc_toNat_of_readable hc h, Nat.mod_eq_of_lt (by omega)]
    obtain hlen | hlen := codeLength_eq_two_or_six s <;> omega

/-- With fewer than `2 * n` bytes of memory left from the PC up, a run ends within `n` cycles. -/
theorem exists_runOver_of_bytes_left {n : Nat} (hr : s.status = .running) (hsize : s.params.memSize < 4294967296)
    (hrule : s.params.shiftRule ≠ .refuse) (hleft : s.params.memSize - s.pc.toNat < 2 * n) :
    ∃ k t, k ≤ n ∧ runsTo k s t ∧ runOver t := by
  induction n generalizing s with
  | zero => omega
  | succ n ih =>
    obtain ⟨u, hu⟩ := exists_step_of_running hr hrule
    by_cases hur : u.status = .running
    · have hp := step_params hu
      have hpc := pc_progress_of_step_running hsize hu hur
      obtain ⟨k, t, hk, hrun, hover⟩ := ih hur (by rwa [hp]) (by rwa [hp]) (by rw [hp]; omega)
      exact ⟨k + 1, t, by omega, runsTo_succ hu hrun, hover⟩
    · exact ⟨1, u, by omega, runsTo_succ hu rfl, hur⟩

end RunEnds

/-- Settles O34: every cycle but the last takes at least 2 of at most MEM_SIZE bytes. -/
theorem straightLineRunEnds : Obligations.StraightLineRunEnds :=
  fun _ hr hsize hrule => exists_runOver_of_bytes_left hr hsize hrule (by omega)

end Sys2Proof.Machine
end
